-- ==== Sys2Proof/Word.lean ====
section
/-!
DEFINITION. Two types: the packed command word, and the samples of the one machine that the host's interface runs.
-/

namespace Sys2Proof

/-- A packed command word `CMD` of `2 * IDXW` bits at the default `IDXW = 32` (30_encoding.md R61). -/
abbrev CmdWord := BitVec 64

/-- The samples of the machine behind the host's interface. The type `T` of 00_scope.md R8 is a parameter of the model
(`Machine.State T`, `Machine.Parameters`); the interface needs one type, and this is it: a token that nothing looks inside. DESIGN
CHOICE, log entry 2. -/
structure Sample where
  token : Int
  deriving DecidableEq, Repr, Inhabited

end Sys2Proof
end

