-- ==== Sys2Proof/Config.lean ====
section
/-!
DEFINITION. What an instance of the block fixes before any data is processed (10_state.md R26): the configuration
record, the closed sets its fields range over, the reference configurations, and the free values.
-/

namespace Sys2Proof

/-- The rounding policies of 43_table_types.md R132. -/
inductive Rounding where
  | truncate
  | roundNearest
  deriving DecidableEq, Repr

/-- The overflow policies of 43_table_types.md R132. -/
inductive Overflow where
  | none
  | saturate
  deriving DecidableEq, Repr

/-- `numericRepresentation`: the closed set of three variants (43_table_types.md R130). `wordLength` is `W`,
`intLength` is `I`; `W >= 1` is checked by the derivation (R131, 60_exceptions.md R153), not by the type. The spec gives `W` no
type; DESIGN CHOICE, log entry 14: any integer can be offered, as for `R`, `L` and `forkingFactor`. -/
inductive NumericRep where
  | f32
  | f64
  | fixed (wordLength : Int) (intLength : Int) (rounding : Rounding) (overflow : Overflow)
  deriving DecidableEq, Repr

/-- `DRIVE_ORDER` (00_scope.md R11, 41_drain.md R103, R108): the default block-major order, or an order listed command
by command as pairs `(stageIndex, timeOffset)`. A listed order is a legal one exactly when it is a rearrangement of the drive
set (`driveOrderLegal`). -/
inductive DriveOrder where
  | blockMajor
  | listed (commands : List (Nat × Nat))
  deriving DecidableEq, Repr

/-- The plain data of the configuration record of 10_state.md R26, with the parameters of 00_scope.md R11, constant for an instance.
`radix` is `R` (00_scope.md R6), `length` is `L` (R7), `minTableLen` is `MIN_TABLE_LEN` (R9), `forkingFactor` and `rep` are the
remaining inputs of TableTraits (R10), `indexWidth` is `IDXW` and `driveOrder` is `DRIVE_ORDER` (R11). A field has a default exactly
where the spec gives its parameter one. The whole record, with the type `T` (R8) and the pair of functions `Numerics` (R11) as its
fields, is `Machine.Parameters`; those two are no plain data, and no step reads them. -/
structure Config where
  radix : Nat
  length : Nat
  forkingFactor : Int
  rep : NumericRep
  minTableLen : Nat := 16
  indexWidth : Nat := 32
  driveOrder : DriveOrder := .blockMajor
  deriving DecidableEq, Repr

/-- An instance of which only `R` and `L` are given, as the reference configurations of 00_scope.md R17 are. The spec gives
`forkingFactor` and `numericRepresentation` no default (92_eei_decisions.md, summary of OPEN parameters): 0 and `F32` are a DESIGN
CHOICE, log entry 1. -/
def Config.ofShape (R L : Nat) : Config := { radix := R, length := L, forkingFactor := 0, rep := .f32 }

/-- `CFG-A` of 00_scope.md R17, the source's own scenario (its remaining fields: log entry 1). -/
def Config.cfgA : Config := .ofShape 4 16

/-- `CFG-B` of 00_scope.md R17 (its remaining fields: log entry 1). -/
def Config.cfgB : Config := .ofShape 2 8

/-- `CFG-C` of 00_scope.md R17 (its remaining fields: log entry 1). -/
def Config.cfgC : Config := .ofShape 4 32

/-- `CFG-D` of 00_scope.md R17, the source's own table-length scenario (its remaining fields: log entry 1). -/
def Config.cfgD : Config := .ofShape 8 64

/-- `CFG-E` of 00_scope.md R17 (its remaining fields: log entry 1). -/
def Config.cfgE : Config := .ofShape 1 3

/-- FREE VALUE (93_implementation_defined.md U5): the raw integer a truncating cast of `v` to `(W, I)` draws when `v`
does not fit. It has no body, so no proof can rest on it. Used by `Numerics.drawn` only; log entry 13. -/
opaque Config.freeOverflowRaw : Nat → Int → Rat → Int

/-- FREE VALUE (93_implementation_defined.md U6): whether a rounding cast of `v` to `(W, I)` at an exact tie takes the lower
neighbour. It has no body, so no proof can rest on it. Used by `Numerics.drawn` only; log entry 13. -/
opaque Config.freeTieDown : Nat → Int → Rat → Bool

end Sys2Proof
end

