-- ==== Sys2Proof/Syntax.lean ====
section
/-!
DEFINITION. The instruction set: the one runtime operation of the block, as the abstract command of 30_encoding.md R60.
-/

namespace Sys2Proof

/-- The abstract command (30_encoding.md R60), one constructor per row of spec/opcode_table.json. Both operands are
mathematical integers, so that an out-of-range or negative index can be written down and shown to fault
(10_state.md R29, D2). -/
inductive Instr where
  /-- `PERMUTE stageIndex, timeOffset` (40_permute.md R80). -/
  | permute (stageIndex timeOffset : Int)
  deriving DecidableEq, Repr

end Sys2Proof
end

