-- ==== Sys2Proof/Machine/State.lean ====
section
/-!
DEFINITION. The state of the machine as plain data: the lane banks, the bookkeeping of 10_state.md section 2 and 4, the
configuration record, and the rest of the run's list of host steps and commands. Also the faults, the refusals and reset.
-/

namespace Sys2Proof.Machine

/-- Who owns the banks (10_state.md R25). -/
inductive Phase where
  /-- The upstream producer owns the banks and may write them. -/
  | fill
  /-- The block may read the banks and nobody may write them. -/
  | drain
  deriving DecidableEq, Repr

/-- The two operations an `OWNERSHIP_VIOLATION` may record (60_exceptions.md R157). -/
inductive BankOp where
  | permute
  | laneWrite
  deriving DecidableEq, Repr

/-- The offending input a `CFG_NO_SIZING_RULE` records (60_exceptions.md R150, R153). -/
inductive SizingInput where
  | forkingFactor (value : Int)
  | wordLength (value : Int)
  deriving DecidableEq, Repr

/-- The eight faults of 60_exceptions.md R150, each with the information record it carries. This is what the fault marker
of the run holds (10_state.md R27). -/
inductive FaultRecord where
  /-- Code 1, R151: raised at configuration when the radix is not a power of two. -/
  | cfgRadixNotPow2 (radix : Int)
  /-- Code 2, R152: raised at configuration when the length is not positive or has no bank depth. -/
  | cfgLength (length radix : Int)
  /-- Code 3, R153: raised by TableTraits when no table-sizing rule is defined. -/
  | cfgNoSizingRule (input : SizingInput)
  /-- Code 4, R154: raised by `PERMUTE`. -/
  | stageIndexRange (stageIndex : Int)
  /-- Code 5, R155: raised by `PERMUTE`. -/
  | timeOffsetRange (timeOffset : Int)
  /-- Code 6, R167: raised by `PERMUTE`. -/
  | sourceOffsetRange (timeOffset rFirst : Int)
  /-- Code 7, R156: raised by `PERMUTE`. -/
  | unpopulatedRead (lane offset : Nat)
  /-- Code 8, R157: raised by `PERMUTE` in phase `FILL` and by `LaneWrite` in phase `DRAIN`. -/
  | ownershipViolation (op : BankOp)
  deriving DecidableEq, Repr

/-- Why the machine has no further step. -/
inductive Fault where
  /-- Answered by every operation and every step once the fault marker is set: the run is over (60_exceptions.md R161).
  Safe: it is the spec's own end of a faulted run. -/
  | halted (record : FaultRecord)
  /-- Answered by a `LaneWrite` whose lane or offset lies outside the banks: the producer has no such step
  (20_memory.md R45, 93_implementation_defined.md U14). Safe: the model stops where the source says nothing. -/
  | producerStuck (lane offset : Int)
  deriving DecidableEq, Repr

/-- Requests and instructions that have no meaning. A refused item ends the run: DESIGN CHOICE, log entry 21. -/
inductive Refusal where
  /-- An instruction whose arm of `exec` has no meaning yet. No arm answers it in this model. Safe. -/
  | notModelled (mnemonic : String)
  /-- Answered by a supplied word that has not the `2 * IDXW` bits of a `CMD` word (30_encoding.md R61, R66): no command stands in
  it. Safe; log entry 10. -/
  | notACommandWord (nbits : Nat)
  /-- `refused(DRAIN_SHAPE)`: answered by `DRAIN` when `R^2` does not divide `L` (41_drain.md R101). Safe: the spec's own
  refusal. That the run ends with it is log entry 21. -/
  | drainShape
  /-- Answered by `DRAIN` when the configuration lists commands that are not a rearrangement of the drive set, so that no
  `DRIVE_ORDER` of 41_drain.md R108 is given. Safe. -/
  | driveOrderNotADriveSet
  deriving DecidableEq, Repr

/-- One populated element of the lane banks, at `(lane, offset)` (10_state.md R22, R24). -/
structure Element (T : Type := Sample) where
  lane : Nat
  offset : Nat
  value : T
  deriving DecidableEq, Repr

/-- Strict order of elements by lane, then by offset. -/
abbrev Element.before {T : Type} (a b : Element T) : Prop :=
  a.lane < b.lane ∨ (a.lane = b.lane ∧ a.offset < b.offset)

/-- The lane banks: the populated elements. An address that is not listed holds no value (10_state.md R24, R33). -/
abbrev Memory (T : Type := Sample) := List (Element T)

/-- The canonical form: addresses strictly rising. Equal contents are then equal lists. -/
abbrev Memory.wf {T : Type} (m : Memory T) : Prop := m.Pairwise Element.before

/-- What the pipeline configuration may ask of TableTraits: the whole descriptor (42_table_sizing.md R118, 43_table_types.md
R139), one of the six lengths, or one of the three capabilities (30_encoding.md R69). -/
inductive TraitsRequest where
  | descriptor
  | twiddleTableLength
  | extendedTwiddleTableLength
  | expTableLength
  | extendedExpTableLength
  | expTableLengthLastStage
  | extendedExpTableLengthLastStage
  | elementType
  | truncatingCastType
  | roundingSaturatingCastType
  deriving DecidableEq, Repr

/-- One item of a run: a command or a host step (60_exceptions.md R165, R166, R168). -/
inductive Event (T : Type := Sample) where
  /-- A command supplied as a packed word (30_encoding.md R61, R66), with the number of its bits. -/
  | word (nbits : Nat) (w : BitVec nbits)
  /-- A command supplied as the abstract record (30_encoding.md R60), whether or not it has a word (R63). -/
  | command (i : Instr)
  /-- The producer's `LaneWrite(l, o, v)` (20_memory.md R45). -/
  | laneWrite (lane offset : Int) (value : T)
  /-- The host step `HandOff` (10_state.md R25). -/
  | handOff
  /-- The host step `Release` (10_state.md R25). -/
  | release
  /-- The pseudo-operation `DRAIN`: whoever supplies the commands supplies the whole drive sequence (41_drain.md R100). -/
  | drain
  /-- The pipeline configuration consults TableTraits (42_table_sizing.md R110, R120). -/
  | tableTraits (request : TraitsRequest)
  deriving DecidableEq, Repr

/-- The state of the machine whose samples have the type `T`, a parameter (00_scope.md R8, 10_state.md R26, D13). The block itself has
no register, no program counter, no flag and no control register (10_state.md R20, R21, R26, R27), so none stands here. Where no type
is named it is `Sample`, the one of the host's interface. -/
structure State (T : Type := Sample) where
  /-- The configuration of this instance (10_state.md R26): read by the steps, written by none. Log entry 1. -/
  config : Config
  /-- `LB` with its populated marks (10_state.md R22, R24). -/
  banks : Memory T
  /-- Who owns the banks (10_state.md R25). -/
  phase : Phase
  /-- The sticky fault marker of the run, `none` when clear (10_state.md R27, 60_exceptions.md R161). -/
  fault : Option FaultRecord
  /-- `OUT`, the output history (10_state.md R31). -/
  out : List (List T)
  /-- The rest of the run's list of host steps and commands (60_exceptions.md R168, 10_state.md R21). The model's own field,
  log entry 3. -/
  inputs : List (Event T)
  deriving DecidableEq, Repr

/-- The state of 10_state.md R33 for an instance with configuration `c`: no element has a value, every populated mark is
false, phase `FILL`, marker clear, `OUT` empty. -/
def State.resetOf (c : Config) (T : Type := Sample) : State T :=
  { config := c, banks := [], phase := .fill, fault := none, out := [], inputs := [] }

/-- The machine right after reset (10_state.md R33, 70_reset_and_hazards.md R170). The instance is the reference
configuration `CFG-A` of 00_scope.md R17: DESIGN CHOICE, log entry 1. -/
def State.reset : State := State.resetOf Config.cfgA

end Sys2Proof.Machine
end

