-- ==== Sys2Proof/Machine/Flags.lean ====
section
/-!
DEFINITION. The block has no flag (10_state.md R27). The one flag-like thing is the sticky fault marker of the run; this file holds
its codes and its readings.
-/

namespace Sys2Proof.Machine

variable {T : Type}

/-- The numeric code of a fault (60_exceptions.md R150). -/
def FaultRecord.code : FaultRecord → Nat
  | .cfgRadixNotPow2 _ => 1
  | .cfgLength _ _ => 2
  | .cfgNoSizingRule _ => 3
  | .stageIndexRange _ => 4
  | .timeOffsetRange _ => 5
  | .sourceOffsetRange _ _ => 6
  | .unpopulatedRead _ _ => 7
  | .ownershipViolation _ => 8

/-- The marker is clear: the premise `NoFault` (10_state.md R27, 70_reset_and_hazards.md R183). -/
abbrev State.noFault (s : State T) : Prop := s.fault = none

end Sys2Proof.Machine
end

