-- ==== Sys2Proof/Machine/Operands.lean ====
section
/-!
DEFINITION. The configuration's arithmetic and the one addressing mode: source lane, source offset, their inverses, the order of
a drive sequence, and the layout a drain implies.
-/

namespace Sys2Proof.Machine

/-- `n` is a power of two: `n >= 1` and `n & (n - 1) = 0` (60_exceptions.md R151). -/
def isPowerOfTwo (n : Nat) : Bool := decide (1 ≤ n) && (n &&& (n - 1) == 0)

/-- `DEPTH = L / R`, the depth of every lane bank (00_scope.md R7, 10_state.md R22). -/
def depthOf (c : Config) : Nat := c.length / c.radix

/-- Configuration of a `PermutationNetwork` instance: the first of `CFG_RADIX_NOT_POW2`, `CFG_LENGTH` that holds, for any
integers offered as `R` and `L` (60_exceptions.md R151, R152, R160). -/
def networkConfigFault (R L : Int) : Option FaultRecord :=
  if R < 1 || !isPowerOfTwo R.toNat then some (.cfgRadixNotPow2 R)
  else if L < 1 || !(L % R == 0) then some (.cfgLength L R)
  else none

/-- The configuration fault of this instance, if any (60_exceptions.md R151, R152). -/
def configFault (c : Config) : Option FaultRecord := networkConfigFault c.radix c.length

/-- The premise `WellFormed(R, L)` of 70_reset_and_hazards.md R183. -/
abbrev configOk (c : Config) : Prop := configFault c = none

/-- `sourceLane = (s + r) mod R` (40_permute.md R83). -/
def sourceLane (R s r : Nat) : Nat := (s + r) % R

/-- The mask form `(s + r) & (R - 1)` of the source lane (00_scope.md R14, 40_permute.md R83). -/
def sourceLaneMask (R s r : Nat) : Nat := (s + r) &&& (R - 1)

/-- `sourceOffset = r + t`, never reduced (40_permute.md R84). -/
def sourceOffset (t r : Nat) : Nat := r + t

/-- The output lane that reads bank `l` under rule `s`: `(l - s) mod R` (40_permute.md R87). -/
def outputLane (R s l : Nat) : Nat := (((l : Int) - (s : Int)) % (R : Int)).toNat

/-- The effective domain of a command, `Valid(R, L)` (40_permute.md R81). -/
abbrev validCommand (c : Config) (s t : Int) : Prop :=
  0 ≤ s ∧ s ≤ (c.radix : Int) - 1 ∧ 0 ≤ t ∧ t ≤ (depthOf c : Int) - (c.radix : Int)

/-- The rule the dispatch chain selects from stage `k = n + 1` down: stage `k >= 2` tests `stageIndex == k - 1`, stage 1 is
rule 0 without a test (40_permute.md R90, R91, R92). -/
def chainRule : Nat → Int → Nat
  | 0, _ => 0
  | n + 1, s => if s = ((n + 1 : Nat) : Int) then n + 1 else chainRule n s

/-- How many equality tests the chain makes from stage `k = n + 1` down (40_permute.md R90, D8). -/
def chainTests : Nat → Int → Nat
  | 0, _ => 0
  | n + 1, s => if s = ((n + 1 : Nat) : Int) then 1 else 1 + chainTests n s

/-- `DRIVE(c) = (c mod R, (c div R) * R)`, the default block-major order (41_drain.md R103). -/
def driveCommand (R c : Nat) : Nat × Nat := (c % R, c / R * R)

/-- The default drive sequence of a transform: `L/R` commands (41_drain.md R103). -/
def driveSequence (c : Config) : List (Nat × Nat) :=
  (List.range (depthOf c)).map (driveCommand c.radix)

/-- `DriveSet(R, L)`: every `(s, k * R)` with `s < R` and `k < L / R^2`, listed stage index first (41_drain.md R102). -/
def driveSet (c : Config) : List (Nat × Nat) :=
  (List.range c.radix).flatMap fun s =>
    (List.range (c.length / (c.radix * c.radix))).map fun k => (s, k * c.radix)

/-- `DRAIN` is defined: `R^2` divides `L` (41_drain.md R101). -/
abbrev drainable (c : Config) : Prop := c.length % (c.radix * c.radix) = 0

/-- The listed order is a bijection onto the drive set (41_drain.md R108). -/
def driveOrderLegal (c : Config) : Bool :=
  match c.driveOrder with
  | .blockMajor => true
  | .listed cmds => cmds.isPerm (driveSet c)

/-- The commands of a drain of this instance, in the configured order (41_drain.md R103, R108). -/
def drainCommands (c : Config) : List (Nat × Nat) :=
  match c.driveOrder with
  | .blockMajor => driveSequence c
  | .listed cmds => cmds

/-- The bank lane of output sample `n` in the default drive order (41_drain.md R105). -/
def layoutLane (R n : Nat) : Nat := (n / R % R + n % R) % R

/-- The bank offset of output sample `n` in the default drive order (41_drain.md R105). -/
def layoutOffset (R n : Nat) : Nat := n / R / R * R + n % R

/-- The output sample that bank element `(l, o)` becomes (41_drain.md R105). -/
def layoutSample (R l o : Nat) : Nat :=
  (o / R * R + (((l : Int) - (o : Int)) % (R : Int)).toNat) * R + o % R

end Sys2Proof.Machine
end

