-- ==== Sys2Proof/Machine/Ops.lean ====
section
/-!
DEFINITION. The named operations over the lane banks and the bookkeeping: reading and writing one element, taking a fault, the
guard every agent's operation passes, and appending an output vector.
-/

namespace Sys2Proof.Machine

variable {T : Type}

/-- The value at `(l, o)`, `none` where nothing was written: `LB[l][o]` with its populated mark (10_state.md R24). -/
def readElement : Memory T → Nat → Nat → Option T
  | [], _, _ => none
  | e :: rest, l, o =>
    if e.lane = l ∧ e.offset = o then some e.value else readElement rest l o

/-- Put `v` at `(l, o)`, keeping the list sorted and replacing what stood there (20_memory.md R45). -/
def writeElement : Memory T → Nat → Nat → T → Memory T
  | [], l, o, v => [⟨l, o, v⟩]
  | e :: rest, l, o, v =>
    if e.lane = l ∧ e.offset = o then ⟨l, o, v⟩ :: rest
    else if Element.before ⟨l, o, v⟩ e then ⟨l, o, v⟩ :: e :: rest
    else e :: writeElement rest l o v

/-- The populated mark of `(l, o)` (10_state.md R24). -/
def populated (m : Memory T) (l o : Nat) : Bool := (readElement m l o).isSome

/-- Taking a fault (60_exceptions.md R161): the marker of the run is set with the record, and nothing else changes. There
is no handler, no saved state and no return (R162). -/
def takeFault (f : FaultRecord) (s : State T) : State T := { s with fault := some f }

/-- `LB[l][o] <- v`, `populated[l][o] <- true` (20_memory.md R45). -/
def storeElement (l o : Nat) (v : T) (s : State T) : State T :=
  { s with banks := writeElement s.banks l o v }

/-- The phase becomes `p` (10_state.md R25). -/
def setPhase (p : Phase) (s : State T) : State T := { s with phase := p }

/-- The rest of the run becomes `es`. -/
def setInputs (es : List (Event T)) (s : State T) : State T := { s with inputs := es }

/-- What every agent's operation passes first. With the marker set no agent has a step (60_exceptions.md R161). A
configuration that violates R151 or R152 is a fault of the instance, found before any operation (R160). Otherwise the operation acts. -/
def operate (act : State T → Host.Outcome (State T) Fault Refusal) (s : State T) :
    Host.Outcome (State T) Fault Refusal :=
  match s.fault with
  | some f => .fault (.halted f)
  | none =>
    match configFault s.config with
    | some f => .next (takeFault f s)
    | none => act s

/-- `LaneRead(l, o)` (20_memory.md R44): the element's value, or `UNPOPULATED_READ` when nothing was written there since reset
(60_exceptions.md R156). It changes nothing. -/
def laneRead (s : State T) (l o : Nat) : Except FaultRecord T :=
  match readElement s.banks l o with
  | some v => .ok v
  | none => .error (.unpopulatedRead l o)

/-- The reads of the output lanes in `lanes`, in that order, for rule `j` at time offset `t`: lane `r` reads
`LB[(j + r) mod R][r + t]` (40_permute.md R80, R83, R84, R85). The first unpopulated element is the fault (R82 test 5). -/
def gather (s : State T) (j t : Nat) : List Nat → Except FaultRecord (List T)
  | [] => .ok []
  | r :: rest =>
    match laneRead s (sourceLane s.config.radix j r) (sourceOffset t r) with
    | .error f => .error f
    | .ok v =>
      match gather s j t rest with
      | .error f => .error f
      | .ok vs => .ok (v :: vs)

/-- `OUT <- OUT ++ [output]` (10_state.md R31, 40_permute.md R80). -/
def emitVector (v : List T) (s : State T) : State T := { s with out := s.out ++ [v] }

/-- The flat output stream, element `c * R + r` being lane `r` of vector `c` (10_state.md R31). -/
def flatOutput (s : State T) : List T := s.out.flatten

end Sys2Proof.Machine
end

