-- ==== Sys2Proof/Machine/Permute.lean ====
section
/-!
DEFINITION. The `PERMUTE` operation: its precondition check, its R rules, the dispatch chain, and its meaning by the closed form.
-/

namespace Sys2Proof.Machine

variable {T : Type}

/-- Tests 1 to 4 of `check(s, t)`, in their order (40_permute.md R82). Test 5, population, is made by the reads
themselves, in ascending output lane, before anything is emitted (`gather`). -/
def checkCommand (st : State T) (s t : Int) : Option FaultRecord :=
  let R : Int := st.config.radix
  let depth : Int := depthOf st.config
  if st.phase ≠ .drain then some (.ownershipViolation .permute)
  else if s < 0 ∨ s > R - 1 then some (.stageIndexRange s)
  else if t < 0 ∨ t > depth - 1 then some (.timeOffsetRange t)
  else if t + (R - 1) > depth - 1 then some (.sourceOffsetRange t (depth - t))
  else none

/-- `rule(j, t)`: the output vector of rule `j` (40_permute.md R90, R95). -/
def ruleOutput (st : State T) (j t : Nat) : Except FaultRecord (List T) :=
  gather st j t (List.range st.config.radix)

/-- `chain(k, s, t)` from stage `k = n + 1` down (40_permute.md R90, R91, R92). -/
def chainOutput (st : State T) : Nat → Int → Nat → Except FaultRecord (List T)
  | 0, _, t => ruleOutput st 0 t
  | n + 1, s, t => if s = ((n + 1 : Nat) : Int) then ruleOutput st (n + 1) t else chainOutput st n s t

/-- `PERMUTE` on an instance that may operate: check, then the closed form `rule(s, t)`, which is normative (40_permute.md R80,
R82, R93). Each outcome is a next state: the vector appended, or the fault taken. -/
def permuteAct (s t : Int) (st : State T) : Host.Outcome (State T) Fault Refusal :=
  match checkCommand st s t with
  | some f => .next (takeFault f st)
  | none =>
    match ruleOutput st s.toNat t.toNat with
    | .error f => .next (takeFault f st)
    | .ok v => .next (emitVector v st)

/-- The meaning of `PERMUTE stageIndex, timeOffset` (40_permute.md R80). -/
def execPermute (stageIndex timeOffset : Int) (s : State T) : Host.Outcome (State T) Fault Refusal :=
  operate (permuteAct stageIndex timeOffset) s

end Sys2Proof.Machine
end

