-- ==== Sys2Proof/WellFormed.lean ====
section
/-!
DEFINITION. Which commands have a packed word (30_encoding.md R63). A command that has none still has a meaning.
-/

namespace Sys2Proof

/-- `v` fits a two's-complement field of `n` bits: `-2^(n-1) <= v <= 2^(n-1) - 1` (30_encoding.md R63). -/
def fitsField (n : Nat) (v : Int) : Bool :=
  decide (-(2 : Int) ^ (n - 1) ≤ v) && decide (v ≤ (2 : Int) ^ (n - 1) - 1)

/-- The commands that have a word with index fields of `n` bits each (30_encoding.md R61, R63, IDXW = n). -/
def Instr.wellFormedAt (n : Nat) : Instr → Bool
  | .permute s t => fitsField n s && fitsField n t

/-- The commands that have a `CMD` word: both indices fit 32 bits (30_encoding.md R63 at the default IDXW). -/
def Instr.wellFormed (i : Instr) : Bool := i.wellFormedAt 32

end Sys2Proof
end

