-- ==== Sys2Proof/Decode.lean ====
section
/-!
DEFINITION. The packed command word: decoder (total on words, 30_encoding.md R62), encoder (partial, R63), and the
operation map's per-rule sub-patterns (R64). Written for an index width `n` (the parameter IDXW) and used at 32.
-/

namespace Sys2Proof

/-- The upper index field `w[2n-1:n]` of a word with `n`-bit index fields (30_encoding.md R61). -/
def stageField (n : Nat) (w : BitVec (2 * n)) : BitVec n := w.extractLsb' n n

/-- The lower index field `w[n-1:0]` (30_encoding.md R61). -/
def timeField (n : Nat) (w : BitVec (2 * n)) : BitVec n := w.extractLsb' 0 n

/-- Decode with `n`-bit index fields: both fields are read as two's-complement signed integers, nothing is scaled,
shifted or split, and every word is a `PERMUTE` (30_encoding.md R62, R64). -/
def decodeAt (n : Nat) (w : BitVec (2 * n)) : Instr :=
  .permute (stageField n w).toInt (timeField n w).toInt

/-- Encode with `n`-bit index fields: `{stageIndex mod 2^n, timeOffset mod 2^n}` when both indices fit, otherwise refused
(30_encoding.md R63). -/
def encodeAt (n : Nat) (i : Instr) : Option (BitVec (2 * n)) :=
  match i with
  | .permute s t =>
    if i.wellFormedAt n then
      some ((BitVec.ofInt n s ++ BitVec.ofInt n t).setWidth (2 * n))
    else none

/-- Decode of a `CMD` word (30_encoding.md R62): total. -/
def decodeWord (w : CmdWord) : Instr := decodeAt 32 w

/-- Encode of a command as a `CMD` word (30_encoding.md R63). -/
def encode (i : Instr) : Option CmdWord := encodeAt 32 i

/-- Decode of a sequence: the `c`-th word is the `c`-th command (30_encoding.md R66). -/
def decodeWords (ws : List CmdWord) : List Instr := ws.map decodeWord

/-- Why the decoder refuses a string of bits. -/
inductive DecodeError where
  /-- The bits are not the one `CMD` word a command has (30_encoding.md R66: one length, no other form). -/
  | notOneWord (nbits : Nat)
  deriving DecidableEq, Repr

/-- Decode a word supplied to an instance with index width `n`: it is a `CMD` word exactly when it has `2 * n` bits
(30_encoding.md R61, R66). -/
def decodeSupplied (n nbits : Nat) (w : BitVec nbits) : Except DecodeError Instr :=
  if nbits = 2 * n then .ok (decodeAt n (w.setWidth (2 * n))) else .error (.notOneWord nbits)

/-- At the default index width, decode `nbits` given bits, numbered as spec/opcode_table.json numbers them, the word's bits above them being 0. There
is no byte order to apply: the transport unit is the whole word (30_encoding.md R66, 20_memory.md R42). More bits than
one word are refused by name. -/
def decodeBits (nbits w : Nat) : Except DecodeError Instr :=
  if nbits ≤ 64 then .ok (decodeWord (BitVec.ofNat 64 (w % 2 ^ nbits)))
  else .error (.notOneWord nbits)

/-- What the decoder reads from a row of the opcode table (none where it refuses). -/
def decodeTableWord (nbits w : Nat) : Option Instr :=
  match decodeBits nbits w with
  | .ok i => some i
  | .error _ => none

/-- The mask of the `stageIndex` field at index width `n`: `0xFFFFFFFF00000000` at the default (30_encoding.md R64). -/
def ruleMaskAt (n : Nat) : BitVec (2 * n) := BitVec.ofNat (2 * n) ((2 ^ n - 1) * 2 ^ n)

/-- The match of rule `s` under the mask: the number `s * 2^32` at the default index width (30_encoding.md R64). -/
def ruleMatchAt (n s : Nat) : Nat := s * 2 ^ n

/-- The word is selected by the sub-pattern of rule `s` at index width `n` (30_encoding.md R64). The spec does not say what the pattern
of a rule number that does not fit the field (`s >= 2^n`) selects, `s * 2^n` being no word then: here it is not reduced, and selects
no word. DESIGN CHOICE, log entry 22. -/
def matchesRuleAt (n s : Nat) (w : BitVec (2 * n)) : Bool := (w &&& ruleMaskAt n).toNat == ruleMatchAt n s

/-- The word is selected by the sub-pattern of rule `s` (30_encoding.md R64). -/
def matchesRule (s : Nat) (w : CmdWord) : Bool := matchesRuleAt 32 s w

end Sys2Proof
end

