-- ==== Sys2Proof/Machine/TableSizing.lean ====
section
/-!
DEFINITION. TableTraits, the sizing half (42_table_sizing.md): six table lengths derived from `(L, R, forkingFactor)` and
`MIN_TABLE_LEN`. Pure functions of the configuration layer; no step of the block reads one.
-/

namespace Sys2Proof.Machine

/-- The inputs of one evaluation of TableTraits (42_table_sizing.md R110, R111). -/
structure TraitsInput where
  length : Int
  radix : Int
  forkingFactor : Int
  minTableLen : Nat
  rep : NumericRep
  deriving DecidableEq, Repr

/-- The inputs this instance's configuration gives TableTraits (10_state.md R26). -/
def traitsInputOf (c : Config) : TraitsInput :=
  { length := c.length, radix := c.radix, forkingFactor := c.forkingFactor,
    minTableLen := c.minTableLen, rep := c.rep }

/-- The first sizing fault of the inputs, in the order of 42_table_sizing.md R111. `R | L` is not asked. -/
def sizingFault (i : TraitsInput) : Option FaultRecord :=
  if i.radix < 1 || !isPowerOfTwo i.radix.toNat then some (.cfgRadixNotPow2 i.radix)
  else if i.length < 1 then some (.cfgLength i.length i.radix)
  else if i.forkingFactor < 0 then some (.cfgNoSizingRule (.forkingFactor i.forkingFactor))
  else none

/-- `twiddleTableLength = L div 4` (42_table_sizing.md R112). -/
def twiddleTableLength (L : Int) : Nat := (L / 4).toNat

/-- `extended(x) = max(x, MIN_TABLE_LEN)` (42_table_sizing.md R113). -/
def extendedLength (minLen x : Nat) : Nat := max x minLen

/-- `extendedTwiddleTableLength` (42_table_sizing.md R114). -/
def extendedTwiddleTableLength (L : Int) (minLen : Nat) : Nat :=
  extendedLength minLen (twiddleTableLength L)

/-- `expTableLength`: 4 when `forkingFactor == 0` and `R == 2`, otherwise `R` (42_table_sizing.md R115). -/
def expTableLength (R ff : Int) : Nat := if ff = 0 ∧ R = 2 then 4 else R.toNat

/-- `extendedExpTableLength` (42_table_sizing.md R117). -/
def extendedExpTableLength (R ff : Int) (minLen : Nat) : Nat :=
  extendedLength minLen (expTableLength R ff)

/-- `expTableLengthLastStage = R div forkingFactor`, present exactly when `forkingFactor > 0` (42_table_sizing.md R116). -/
def expTableLengthLastStage (R ff : Int) : Option Nat :=
  if 0 < ff then some (R / ff).toNat else none

/-- `extendedExpTableLengthLastStage`, present exactly when the last-stage length is (42_table_sizing.md R117). -/
def extendedExpTableLengthLastStage (R ff : Int) (minLen : Nat) : Option Nat :=
  (expTableLengthLastStage R ff).map (extendedLength minLen)

/-- The sizing part of the table descriptor (42_table_sizing.md R118). -/
structure SizingDescriptor where
  twiddleTableLength : Nat
  extendedTwiddleTableLength : Nat
  expTableLength : Nat
  extendedExpTableLength : Nat
  expTableLengthLastStage : Option Nat
  extendedExpTableLengthLastStage : Option Nat
  minTableLength : Nat
  deriving DecidableEq, Repr

/-- The sizing part for inputs that have no sizing fault (42_table_sizing.md R112 to R118). -/
def sizingOf (i : TraitsInput) : SizingDescriptor :=
  { twiddleTableLength := twiddleTableLength i.length
    extendedTwiddleTableLength := extendedTwiddleTableLength i.length i.minTableLen
    expTableLength := expTableLength i.radix i.forkingFactor
    extendedExpTableLength := extendedExpTableLength i.radix i.forkingFactor i.minTableLen
    expTableLengthLastStage := expTableLengthLastStage i.radix i.forkingFactor
    extendedExpTableLengthLastStage :=
      extendedExpTableLengthLastStage i.radix i.forkingFactor i.minTableLen
    minTableLength := i.minTableLen }

end Sys2Proof.Machine
end

