-- ==== Sys2Proof/Machine/TableTypes.lean ====
section
/-!
DEFINITION. TableTraits, the typing half (43_table_types.md): the element type, the two casts with their reference
definitions, the pluggable `Numerics`, and the properties P1 to P6 a claim may assume of it.
-/

namespace Sys2Proof.Machine

/-- A scalar element type (43_table_types.md R133): IEEE binary32, IEEE binary64, or a fixed-point format with its policies. -/
inductive ElementType where
  | binary32
  | binary64
  | fixed (wordLength : Int) (intLength : Int) (rounding : Rounding) (overflow : Overflow)
  deriving DecidableEq, Repr

/-- `ElementType(REP)` (43_table_types.md R133). -/
def elementTypeOf : NumericRep → ElementType
  | .f32 => .binary32
  | .f64 => .binary64
  | .fixed W I q o => .fixed W I q o

/-- The target type of `TruncatingCast(REP)` (43_table_types.md R134). -/
def truncatingCastTypeOf : NumericRep → ElementType
  | .f32 => .binary32
  | .f64 => .binary64
  | .fixed W I _ _ => .fixed W I .truncate .none

/-- The target type of `RoundingSaturatingCast(REP)` (43_table_types.md R134). -/
def roundingSaturatingCastTypeOf : NumericRep → ElementType
  | .f32 => .binary32
  | .f64 => .binary64
  | .fixed W I _ _ => .fixed W I .roundNearest .saturate

/-- The typing fault of a representation: `W < 1` (43_table_types.md R131, 60_exceptions.md R153), recorded with `W` (log entry 11). The
other members of that class cannot be written, the types being closed (R130). -/
def typingFault : NumericRep → Option FaultRecord
  | .fixed W _ _ _ => if W < 1 then some (.cfgNoSizingRule (.wordLength W)) else none
  | _ => none

/-- `2^k` for an integer `k`, as a rational. -/
def pow2 (k : Int) : Rat :=
  if 0 ≤ k then ((2 ^ k.toNat : Nat) : Rat) else 1 / ((2 ^ (-k).toNat : Nat) : Rat)

/-- `F = W - I`, the number of fraction bits (43_table_types.md R131). -/
def fracBits (W : Nat) (I : Int) : Int := (W : Int) - I

/-- The smallest raw integer of a `W`-bit format, `-2^(W-1)` (43_table_types.md R131). -/
def rawMin (W : Nat) : Int := -(2 : Int) ^ (W - 1)

/-- The largest raw integer of a `W`-bit format, `2^(W-1) - 1` (43_table_types.md R131). -/
def rawMax (W : Nat) : Int := (2 : Int) ^ (W - 1) - 1

/-- The value a raw integer stands for: `raw * 2^(-F)` (43_table_types.md R131). -/
def fixedValue (W : Nat) (I raw : Int) : Rat := (raw : Rat) * pow2 (-(fracBits W I))

/-- `v` is a value of the format `(W, I)` (43_table_types.md R131). -/
def Representable (W : Nat) (I : Int) (v : Rat) : Prop :=
  ∃ raw : Int, rawMin W ≤ raw ∧ raw ≤ rawMax W ∧ v = fixedValue W I raw

/-- `v` lies within the representable range of `(W, I)` (43_table_types.md R131). -/
def WithinRange (W : Nat) (I : Int) (v : Rat) : Prop :=
  fixedValue W I (rawMin W) ≤ v ∧ v ≤ fixedValue W I (rawMax W)

/-- Keep the low `W` bits, read as two's complement (43_table_types.md R135). -/
def wrapRaw (W : Nat) (q : Int) : Int := (q + (2 : Int) ^ (W - 1)) % (2 : Int) ^ W - (2 : Int) ^ (W - 1)

/-- Clamp to the representable range (43_table_types.md R136). -/
def clampRaw (W : Nat) (q : Int) : Int := min (max q (rawMin W)) (rawMax W)

/-- The raw result of the truncating cast, reference definition (43_table_types.md R135). -/
def truncRaw (W : Nat) (I : Int) (v : Rat) : Int := wrapRaw W ⌊v * pow2 (fracBits W I)⌋

/-- `castTrunc(W, I, v)`, reference definition (43_table_types.md R135). -/
def castTrunc (W : Nat) (I : Int) (v : Rat) : Rat := fixedValue W I (truncRaw W I v)

/-- The raw result of the rounding and saturating cast, reference definition: nearest step, a tie toward plus infinity, then
the clamp (43_table_types.md R136). -/
def rndSatRaw (W : Nat) (I : Int) (v : Rat) : Int := clampRaw W ⌊v * pow2 (fracBits W I) + 1 / 2⌋

/-- `castRndSat(W, I, v)`, reference definition (43_table_types.md R136). -/
def castRndSat (W : Nat) (I : Int) (v : Rat) : Rat := fixedValue W I (rndSatRaw W I v)

/-- The truncating cast with the overflowed result left open: a draw from the representable values
(93_implementation_defined.md U5). -/
def castTruncDrawn (W : Nat) (I : Int) (v : Rat) : Rat :=
  let q := ⌊v * pow2 (fracBits W I)⌋
  if rawMin W ≤ q ∧ q ≤ rawMax W then fixedValue W I q
  else fixedValue W I (wrapRaw W (Config.freeOverflowRaw W I v))

/-- The rounding and saturating cast with the tie left open: a draw between the two neighbours
(93_implementation_defined.md U6). -/
def castRndSatDrawn (W : Nat) (I : Int) (v : Rat) : Rat :=
  let x := v * pow2 (fracBits W I)
  if x = ⌊x⌋ + 1 / 2 then
    fixedValue W I (clampRaw W (if Config.freeTieDown W I v then ⌊x⌋ else ⌊x⌋ + 1))
  else fixedValue W I (clampRaw W ⌊x + 1 / 2⌋)

/-- What a cast of a representation takes and gives: the 32 or 64 bits of a float, or the rational a fixed-point value
stands for (43_table_types.md R134, R138). -/
abbrev Operand : NumericRep → Type
  | .f32 => BitVec 32
  | .f64 => BitVec 64
  | .fixed _ _ _ _ => Rat

/-- The pluggable pair of casts, total functions per representation (43_table_types.md R142, 00_scope.md R11). -/
structure Numerics where
  trunc : (rep : NumericRep) → Operand rep → Operand rep
  rndsat : (rep : NumericRep) → Operand rep → Operand rep

/-- The reference definitions, the identity on floats (43_table_types.md R135, R136, R138): the default of the parameter `Numerics`.
A fixed-point format that has a typing has `W >= 1` bits. -/
def Numerics.reference : Numerics where
  trunc
    | .f32 => fun x => x
    | .f64 => fun x => x
    | .fixed W I _ _ => castTrunc W.toNat I
  rndsat
    | .f32 => fun x => x
    | .f64 => fun x => x
    | .fixed W I _ _ => castRndSat W.toNat I

/-- The `Numerics` in which overflow of the truncating cast and ties of the rounding cast are free values
(93_implementation_defined.md U5, U6, U16). -/
def Numerics.drawn : Numerics where
  trunc
    | .f32 => fun x => x
    | .f64 => fun x => x
    | .fixed W I _ _ => castTruncDrawn W.toNat I
  rndsat
    | .f32 => fun x => x
    | .f64 => fun x => x
    | .fixed W I _ _ => castRndSatDrawn W.toNat I

/-- P1: `trunc (trunc v) = trunc v`, for every representation that has a typing (43_table_types.md R142). -/
def Numerics.P1 (N : Numerics) : Prop :=
  ∀ rep, typingFault rep = none → ∀ v, N.trunc rep (N.trunc rep v) = N.trunc rep v

/-- P2: both casts are the identity on floats (43_table_types.md R142). -/
def Numerics.P2 (N : Numerics) : Prop :=
  (∀ x, N.trunc .f32 x = x) ∧ (∀ x, N.rndsat .f32 x = x) ∧
    (∀ x, N.trunc .f64 x = x) ∧ (∀ x, N.rndsat .f64 x = x)

/-- P3: the result of either cast is representable (43_table_types.md R142). -/
def Numerics.P3 (N : Numerics) : Prop :=
  ∀ (W : Nat) I q o v, 1 ≤ W →
    Representable W I (N.trunc (.fixed W I q o) v) ∧ Representable W I (N.rndsat (.fixed W I q o) v)

/-- P4: a representable value is returned unchanged by either cast (43_table_types.md R142). -/
def Numerics.P4 (N : Numerics) : Prop :=
  ∀ (W : Nat) I q o v, 1 ≤ W → Representable W I v →
    N.trunc (.fixed W I q o) v = v ∧ N.rndsat (.fixed W I q o) v = v

/-- P5: the rounding cast lies within the range, and within half a step of a value that does (43_table_types.md R142). -/
def Numerics.P5 (N : Numerics) : Prop :=
  ∀ (W : Nat) I q o (v : Rat), 1 ≤ W →
    WithinRange W I (N.rndsat (.fixed W I q o) v) ∧
      (WithinRange W I v →
        |(N.rndsat (.fixed W I q o) v : Rat) - v| ≤ pow2 (-(fracBits W I) - 1))

/-- P6: the truncating cast of a value within the range is the step at or below it (43_table_types.md R142). -/
def Numerics.P6 (N : Numerics) : Prop :=
  ∀ (W : Nat) I q o (v : Rat), 1 ≤ W → WithinRange W I v →
    (N.trunc (.fixed W I q o) v : Rat) ≤ v ∧
      v < (N.trunc (.fixed W I q o) v : Rat) + pow2 (-(fracBits W I))

/-- All a claim may assume of a pluggable `Numerics` (43_table_types.md R142). -/
def Numerics.Lawful (N : Numerics) : Prop := N.P1 ∧ N.P2 ∧ N.P3 ∧ N.P4 ∧ N.P5 ∧ N.P6

/-- The capability `TruncatingCast(REP)`: a target type and a function into it, or the fault of a representation with no
sizing rule (43_table_types.md R134, R139). -/
def truncatingCast (N : Numerics) (rep : NumericRep) :
    Except FaultRecord (ElementType × (Operand rep → Operand rep)) :=
  match typingFault rep with
  | some f => .error f
  | none => .ok (truncatingCastTypeOf rep, N.trunc rep)

/-- The capability `RoundingSaturatingCast(REP)` (43_table_types.md R134, R139). -/
def roundingSaturatingCast (N : Numerics) (rep : NumericRep) :
    Except FaultRecord (ElementType × (Operand rep → Operand rep)) :=
  match typingFault rep with
  | some f => .error f
  | none => .ok (roundingSaturatingCastTypeOf rep, N.rndsat rep)

/-- A cast applied to a table entry, a pair (real, imaginary): to each component separately (43_table_types.md R133, D19). -/
def castEntry {rep : NumericRep} (cast : Operand rep → Operand rep) (entry : Operand rep × Operand rep) :
    Operand rep × Operand rep :=
  (cast entry.1, cast entry.2)

end Sys2Proof.Machine
end

