-- ==== Sys2Proof/Machine/TableTraits.lean ====
section
/-!
DEFINITION. TableTraits as a whole: the table descriptor and the requests the pipeline configuration may make
(42_table_sizing.md R110, R118, 43_table_types.md R139, 60_exceptions.md R153).
-/

namespace Sys2Proof.Machine

/-- The table descriptor: sizing part and typing part (42_table_sizing.md R118, 43_table_types.md R139). -/
structure TableDescriptor where
  sizing : SizingDescriptor
  elementType : ElementType
  truncatingCastType : ElementType
  roundingSaturatingCastType : ElementType
  deriving DecidableEq, Repr

/-- The first fault of an evaluation: the sizing faults in the order of 42_table_sizing.md R111, then the typing fault of
43_table_types.md R131 (the place of the last is the model's, log entry 11). -/
def traitsFault (i : TraitsInput) : Option FaultRecord :=
  match sizingFault i with
  | some f => some f
  | none => typingFault i.rep

/-- TableTraits: the descriptor, or the fault with no descriptor (42_table_sizing.md R110, R111). -/
def tableTraits (i : TraitsInput) : Except FaultRecord TableDescriptor :=
  match traitsFault i with
  | some f => .error f
  | none => .ok {
      sizing := sizingOf i
      elementType := elementTypeOf i.rep
      truncatingCastType := truncatingCastTypeOf i.rep
      roundingSaturatingCastType := roundingSaturatingCastTypeOf i.rep }

/-- What a request gets back. -/
inductive TraitsAnswer where
  | descriptor (d : TableDescriptor)
  | length (n : Nat)
  | type (t : ElementType)
  deriving DecidableEq, Repr

/-- A length that may be absent: a request for an absent one is `CFG_NO_SIZING_RULE` for the forking factor that leaves it without
a rule (42_table_sizing.md R116, 60_exceptions.md R153). -/
def answerOptional (i : TraitsInput) : Option Nat → Except FaultRecord TraitsAnswer
  | some n => .ok (.length n)
  | none => .error (.cfgNoSizingRule (.forkingFactor i.forkingFactor))

/-- The answer to one request (30_encoding.md R69, 42_table_sizing.md R116, 43_table_types.md R139). -/
def answerRequest (i : TraitsInput) (request : TraitsRequest) : Except FaultRecord TraitsAnswer :=
  match tableTraits i with
  | .error f => .error f
  | .ok d =>
    match request with
    | .descriptor => .ok (.descriptor d)
    | .twiddleTableLength => .ok (.length d.sizing.twiddleTableLength)
    | .extendedTwiddleTableLength => .ok (.length d.sizing.extendedTwiddleTableLength)
    | .expTableLength => .ok (.length d.sizing.expTableLength)
    | .extendedExpTableLength => .ok (.length d.sizing.extendedExpTableLength)
    | .expTableLengthLastStage => answerOptional i d.sizing.expTableLengthLastStage
    | .extendedExpTableLengthLastStage => answerOptional i d.sizing.extendedExpTableLengthLastStage
    | .elementType => .ok (.type d.elementType)
    | .truncatingCastType => .ok (.type d.truncatingCastType)
    | .roundingSaturatingCastType => .ok (.type d.roundingSaturatingCastType)

end Sys2Proof.Machine
end

