-- ==== Sys2Proof/Machine/Agents.lean ====
section
/-!
DEFINITION. The steps of the block's neighbours (60_exceptions.md R165, R166): the producer's LaneWrite, HandOff and Release,
its supplying of a whole drive sequence (DRAIN), and the pipeline configuration's consulting of TableTraits.
-/

namespace Sys2Proof.Machine

variable {T : Type}

/-- `(l, o)` is an address of the banks (20_memory.md R40). -/
abbrev addressInRange (c : Config) (l o : Int) : Prop :=
  0 ≤ l ∧ l < (c.radix : Int) ∧ 0 ≤ o ∧ o < (depthOf c : Int)

/-- `LaneWrite(l, o, v)` (20_memory.md R45): outside the banks the producer has no such step, in either phase; in phase `DRAIN`
it is `OWNERSHIP_VIOLATION` (60_exceptions.md R157); otherwise the element is written and populated. Log entry 7. -/
def laneWriteAct (l o : Int) (v : T) (s : State T) : Host.Outcome (State T) Fault Refusal :=
  if addressInRange s.config l o then
    match s.phase with
    | .drain => .next (takeFault (.ownershipViolation .laneWrite) s)
    | .fill => .next (storeElement l.toNat o.toNat v s)
  else .fault (.producerStuck l o)

/-- The producer's `LaneWrite`. -/
def hostLaneWrite (l o : Int) (v : T) (s : State T) : Host.Outcome (State T) Fault Refusal :=
  operate (laneWriteAct l o v) s

/-- `HandOff`: the banks are the block's to read; always admitted (10_state.md R25). -/
def hostHandOff (s : State T) : Host.Outcome (State T) Fault Refusal :=
  operate (fun s => .next (setPhase .drain s)) s

/-- `Release`: the banks are the producer's again, with contents and marks unchanged; always admitted (10_state.md R25). -/
def hostRelease (s : State T) : Host.Outcome (State T) Fault Refusal :=
  operate (fun s => .next (setPhase .fill s)) s

/-- The commands of a drain as items of the run (41_drain.md R100, R103). -/
def drainEvents (c : Config) : List (Event T) :=
  (drainCommands c).map fun p => .command (.permute p.1 p.2)

/-- `DRAIN` (41_drain.md R100): the `L/R` commands of the drive sequence come next, in order. Refused when `R^2` does not
divide `L` (R101), and when the configured order is no order of the drive set (R108). The spec does not say whether the rest of
the run goes on after a refused request (00_scope.md R15): here it does not. DESIGN CHOICE, log entry 21. -/
def drainAct (s : State T) : Host.Outcome (State T) Fault Refusal :=
  if drainable s.config then
    if driveOrderLegal s.config then .next (setInputs (drainEvents s.config ++ s.inputs) s)
    else .refused .driveOrderNotADriveSet
  else .refused .drainShape

/-- Whoever supplies the commands issues a `DRAIN`. -/
def hostDrain (s : State T) : Host.Outcome (State T) Fault Refusal := operate drainAct s

/-- A request to TableTraits: a fault is taken, an answer changes nothing of the network (42_table_sizing.md R120,
60_exceptions.md R153). -/
def tableTraitsAct (request : TraitsRequest) (s : State T) : Host.Outcome (State T) Fault Refusal :=
  match answerRequest (traitsInputOf s.config) request with
  | .error f => .next (takeFault f s)
  | .ok _ => .next s

/-- The pipeline configuration consults TableTraits. -/
def hostTableTraits (request : TraitsRequest) (s : State T) : Host.Outcome (State T) Fault Refusal :=
  operate (tableTraitsAct request) s

/-- The run's list is exhausted: no agent has anything to do, and nothing changes (60_exceptions.md R168). -/
def hostIdle (s : State T) : Host.Outcome (State T) Fault Refusal := operate .next s

end Sys2Proof.Machine
end

