-- ==== Sys2Proof/Machine/Fetch.lean ====
section
/-!
DEFINITION. Taking the next item of the run and performing it (10_state.md R21, 60_exceptions.md R168): a command is decoded
and executed, a host step is performed by its agent.
-/

namespace Sys2Proof.Machine

variable {T : Type}

/-- How an instance carries out one command: `exec` for the host's machine, `Parameters`' own for any other type of samples. -/
abbrev Executor (T : Type) := Instr → State T → Host.Outcome (State T) Fault Refusal

/-- Perform a supplied word: decode it at the instance's `IDXW` and run the command. Decode is total on `CMD` words
(30_encoding.md R62); a word of another length is refused on an instance that may operate (R66, log entry 10). -/
def performWord (run : Executor T) (nbits : Nat) (w : BitVec nbits) (s : State T) :
    Host.Outcome (State T) Fault Refusal :=
  match decodeSupplied s.config.indexWidth nbits w with
  | .ok i => run i s
  | .error (.notOneWord k) => operate (fun _ => .refused (.notACommandWord k)) s

/-- Perform one item. -/
def performEvent (run : Executor T) : Event T → State T → Host.Outcome (State T) Fault Refusal
  | .word nbits w, s => performWord run nbits w s
  | .command i, s => run i s
  | .laneWrite l o v, s => hostLaneWrite l o v s
  | .handOff, s => hostHandOff s
  | .release, s => hostRelease s
  | .drain, s => hostDrain s
  | .tableTraits request, s => hostTableTraits request s

/-- Take the head of the run's list and perform it on the state that holds the rest of the list. -/
def runNextEvent (run : Executor T) (s : State T) : Host.Outcome (State T) Fault Refusal :=
  match s.inputs with
  | [] => hostIdle s
  | e :: rest => performEvent run e (setInputs rest s)

/-- The given bits put at the head of the run's list: as a `CMD` word of this instance, every bit above the given ones 0, where they
are no more than its `2 * IDXW` bits; otherwise as they are, all `nbits` of them, no bit dropped, and the step then refuses them as no
command word. Log entry 10. -/
def placeWord (s : State T) (nbits w : Nat) : State T :=
  let n := s.config.indexWidth
  if nbits ≤ 2 * n then setInputs (.word (2 * n) (BitVec.ofNat (2 * n) (w % 2 ^ nbits)) :: s.inputs) s
  else setInputs (.word nbits (BitVec.ofNat nbits w) :: s.inputs) s

end Sys2Proof.Machine
end

