-- ==== Sys2Proof/Machine/Step.lean ====
section
/-! DEFINITION. The step of the machine, and the placing of a word where the step takes its next command. -/

namespace Sys2Proof.Machine

/-- One step: the next item of the run is performed, a command by `exec` (60_exceptions.md R165, R168, D1). -/
def step (s : State) : Host.Outcome State Fault Refusal := runNextEvent exec s

/-- The state in which the very next step runs the given word (log entry 3). -/
def State.withFetchWord (s : State) (nbits w : Nat) : State := placeWord s nbits w

end Sys2Proof.Machine
end

