-- ==== Sys2Proof/Machine/Text.lean ====
section
/-!
DEFINITION. The textual form of a program (30_encoding.md R67, R68): statements, their reading from a line of characters, their
expansion into items of a run, and the state a program starts from.
-/

namespace Sys2Proof.Machine

/-- An element expression of `FILLALL`: a function of the lane `l` and the offset `o` (30_encoding.md R68). Any such function over the
banks of a configuration is the value of one: `FillExpr.exists_value` in Laws/Text.lean. Log entry 19. -/
inductive FillExpr where
  | literal (v : Int)
  | lane
  | offset
  | add (a b : FillExpr)
  | sub (a b : FillExpr)
  | mul (a b : FillExpr)
  /-- `v` at one element, the value of `otherwise` at every other: for a function that only the prose of a test gives. -/
  | override (lane offset : Nat) (v : Int) (otherwise : FillExpr)
  deriving DecidableEq, Repr

/-- The value of an element expression at `(l, o)`. -/
def FillExpr.value (l o : Nat) : FillExpr → Int
  | .literal v => v
  | .lane => l
  | .offset => o
  | .add a b => a.value l o + b.value l o
  | .sub a b => a.value l o - b.value l o
  | .mul a b => a.value l o * b.value l o
  | .override l' o' v otherwise => if l = l' ∧ o = o' then v else otherwise.value l o

/-- One statement of the textual form (30_encoding.md R67, R68). -/
inductive Statement where
  | permute (s t : Int)
  | drain
  | write (l o v : Int)
  | fillAll (e : FillExpr)
  | handOff
  | release
  deriving DecidableEq, Repr

/-- The addresses of the banks, lane first (20_memory.md R40). -/
def bankAddresses (c : Config) : List (Nat × Nat) :=
  (List.range c.radix).flatMap fun l => (List.range (depthOf c)).map fun o => (l, o)

/-- The items of a run one statement stands for (30_encoding.md R68). -/
def expandStatement (c : Config) : Statement → List Event
  | .permute s t => [.command (.permute s t)]
  | .drain => [.drain]
  | .write l o v => [.laneWrite l o ⟨v⟩]
  | .fillAll e => (bankAddresses c).map fun p => .laneWrite p.1 p.2 ⟨e.value p.1 p.2⟩
  | .handOff => [.handOff]
  | .release => [.release]

/-- A program: the configuration of its header and its statements (30_encoding.md R67). -/
structure Program where
  config : Config
  statements : List Statement
  deriving DecidableEq, Repr

/-- The start of a program's run: reset, with the program's items as the run's list (60_exceptions.md R168). -/
def startProgram (p : Program) : State :=
  { State.resetOf p.config with inputs := p.statements.flatMap (expandStatement p.config) }

/-- A character that separates words of a line. -/
def isBlank (ch : Char) : Bool := ch == ' ' || ch == '\t'

/-- The rest of a line after its leading blanks. -/
def skipBlanks (cs : List Char) : List Char := cs.dropWhile isBlank

/-- A line without its comment, `#` to the end of the line (30_encoding.md R67). -/
def stripComment (cs : List Char) : List Char := cs.takeWhile fun ch => !(ch == '#')

/-- The value of a decimal digit. -/
def digitValue (ch : Char) : Option Nat :=
  if '0'.toNat ≤ ch.toNat ∧ ch.toNat ≤ '9'.toNat then some (ch.toNat - '0'.toNat) else none

/-- Read the digits at the front, `acc` holding the value of those before them. -/
def readDigits (acc : Nat) : List Char → Nat × List Char
  | [] => (acc, [])
  | ch :: rest =>
    match digitValue ch with
    | some d => readDigits (acc * 10 + d) rest
    | none => (acc, ch :: rest)

/-- Read a decimal natural number: at least one digit. -/
def readNat (cs : List Char) : Option (Nat × List Char) :=
  match cs with
  | ch :: rest => (digitValue ch).map fun d => readDigits d rest
  | [] => none

/-- Read a decimal integer with an optional leading `-` (30_encoding.md R67). -/
def readInt (cs : List Char) : Option (Int × List Char) :=
  match cs with
  | '-' :: rest => (readNat rest).map fun p => (-(p.1 : Int), p.2)
  | _ => (readNat cs).map fun p => ((p.1 : Int), p.2)

/-- Drop a word that stands at the front. -/
def readWord : List Char → List Char → Option (List Char)
  | [], cs => some cs
  | w :: ws, ch :: rest => if w = ch then readWord ws rest else none
  | _ :: _, [] => none

/-- Read a comma with blanks around it, then an integer. -/
def readCommaInt (cs : List Char) : Option (Int × List Char) :=
  match skipBlanks cs with
  | ',' :: rest => readInt (skipBlanks rest)
  | _ => none

/-- Nothing but blanks is left. -/
def atEnd (cs : List Char) : Bool := (skipBlanks cs).isEmpty

/-- A blank stands at the front, as between a mnemonic and its first operand. -/
def readBlank (cs : List Char) : Option (List Char) :=
  match cs with
  | ch :: rest => if isBlank ch then some (skipBlanks rest) else none
  | [] => none

/-- A statement that is one word alone. -/
def readAlone (word : List Char) (st : Statement) (cs : List Char) : Option Statement :=
  match readWord word cs with
  | some rest => if atEnd rest then some st else none
  | none => none

/-- `PERMUTE <s>, <t>` (30_encoding.md R67). -/
def readPermute (cs : List Char) : Option Statement := do
  let cs ← readWord ['P', 'E', 'R', 'M', 'U', 'T', 'E'] cs
  let cs ← readBlank cs
  let (s, cs) ← readInt cs
  let (t, cs) ← readCommaInt cs
  if atEnd cs then some (.permute s t) else none

/-- `WRITE <l>, <o>, <v>` (30_encoding.md R68). -/
def readWrite (cs : List Char) : Option Statement := do
  let cs ← readWord ['W', 'R', 'I', 'T', 'E'] cs
  let cs ← readBlank cs
  let (l, cs) ← readInt cs
  let (o, cs) ← readCommaInt cs
  let (v, cs) ← readCommaInt cs
  if atEnd cs then some (.write l o v) else none

/-- What `readExpr` looks for next: a sum, the rest of a sum, a product, the rest of a product, or an atom. -/
inductive ExprGoal where
  | sum
  | sumRest (acc : FillExpr)
  | product
  | productRest (acc : FillExpr)
  | atom

/-- Read an element expression: integers, `l`, `o`, `+`, `-`, `*` and parentheses with their usual precedence, as the programs of
95_test_vectors.md section 3 write it (log entry 19). The first argument bounds the depth of the reading. -/
def readExpr : Nat → ExprGoal → List Char → Option (FillExpr × List Char)
  | 0, _, _ => none
  | n + 1, .sum, cs => do
    let (e, cs) ← readExpr n .product cs
    readExpr n (.sumRest e) cs
  | n + 1, .sumRest acc, cs =>
    match skipBlanks cs with
    | '+' :: rest => do
      let (e, cs) ← readExpr n .product rest
      readExpr n (.sumRest (.add acc e)) cs
    | '-' :: rest => do
      let (e, cs) ← readExpr n .product rest
      readExpr n (.sumRest (.sub acc e)) cs
    | cs => some (acc, cs)
  | n + 1, .product, cs => do
    let (e, cs) ← readExpr n .atom cs
    readExpr n (.productRest e) cs
  | n + 1, .productRest acc, cs =>
    match skipBlanks cs with
    | '*' :: rest => do
      let (e, cs) ← readExpr n .atom rest
      readExpr n (.productRest (.mul acc e)) cs
    | cs => some (acc, cs)
  | n + 1, .atom, cs =>
    match skipBlanks cs with
    | 'l' :: rest => some (.lane, rest)
    | 'o' :: rest => some (.offset, rest)
    | '-' :: rest => do
      let (e, cs) ← readExpr n .atom rest
      some (.sub (.literal 0) e, cs)
    | '(' :: rest => do
      let (e, cs) ← readExpr n .sum rest
      match skipBlanks cs with
      | ')' :: rest => some (e, rest)
      | _ => none
    | cs => (readNat cs).map fun p => (.literal p.1, p.2)

/-- `FILLALL <expr>` (30_encoding.md R68). Three levels of the reading end at each character at most. -/
def readFillAll (cs : List Char) : Option Statement := do
  let cs ← readWord ['F', 'I', 'L', 'L', 'A', 'L', 'L'] cs
  let cs ← readBlank cs
  let (e, cs) ← readExpr (3 * cs.length + 3) .sum cs
  if atEnd cs then some (.fillAll e) else none

/-- One statement of a line, its blanks and comment gone. -/
def readStatement (cs : List Char) : Option Statement :=
  readPermute cs
    <|> readWrite cs
    <|> readFillAll cs
    <|> readAlone ['D', 'R', 'A', 'I', 'N'] .drain cs
    <|> readAlone ['H', 'A', 'N', 'D', 'O', 'F', 'F'] .handOff cs
    <|> readAlone ['R', 'E', 'L', 'E', 'A', 'S', 'E'] .release cs

/-- The header `.config R=<n> L=<n>` (30_encoding.md R67): it fixes `R` and `L`, and a `DRAIN` of the text has the default drive order
(R68). The parameters it says nothing of, and to which the spec gives no value, are those of `base`. -/
def readHeader (base : Config) (cs : List Char) : Option Config := do
  let cs ← readWord ['.', 'c', 'o', 'n', 'f', 'i', 'g'] cs
  let cs ← readBlank cs
  let cs ← readWord ['R', '='] cs
  let (r, cs) ← readNat cs
  let cs ← readBlank cs
  let cs ← readWord ['L', '='] cs
  let (l, cs) ← readNat cs
  if atEnd cs then some { base with radix := r, length := l, driveOrder := .blockMajor } else none

/-- Why a text is no program. -/
inductive TextError where
  /-- The first line that is not blank is no header. -/
  | noHeader
  /-- A line is neither blank nor one statement. -/
  | notAStatement (line : List Char)
  deriving DecidableEq, Repr

/-- Read the statements, one a line, blank lines ignored (30_encoding.md R67). -/
def readStatements : List (List Char) → Except TextError (List Statement)
  | [] => .ok []
  | line :: rest =>
    let body := skipBlanks (stripComment line)
    if body.isEmpty then readStatements rest
    else
      match readStatement body with
      | none => .error (.notAStatement line)
      | some st =>
        match readStatements rest with
        | .error e => .error e
        | .ok sts => .ok (st :: sts)

/-- Read a program: blank lines, the header, then the statements (30_encoding.md R67). `base` gives what the header does not. -/
def readProgram (base : Config) : List (List Char) → Except TextError Program
  | [] => .error .noHeader
  | line :: rest =>
    let body := skipBlanks (stripComment line)
    if body.isEmpty then readProgram base rest
    else
      match readHeader base body with
      | none => .error .noHeader
      | some c =>
        match readStatements rest with
        | .error e => .error e
        | .ok sts => .ok { config := c, statements := sts }

end Sys2Proof.Machine
end

