-- ==== Sys2Proof/Machine/Parameters.lean ====
section
/-!
DEFINITION. The configuration record of 10_state.md R26 as the model's parameter: the plain data of `Config`, the type `T` of the
samples and the pluggable pair of casts `Numerics`; and the machine and the casts that each such record gives.
-/

namespace Sys2Proof.Machine

variable {T : Type}

/-- The configuration record (10_state.md R26) with all the parameters of 00_scope.md R6 to R11. No step reads or writes `T` or
`numerics`, and they are no state: a type and a pair of functions are no plain data. -/
structure Parameters where
  /-- The sample type `T`: any type with decidable equality (00_scope.md R8, 92_eei_decisions.md D13). -/
  T : Type
  eqT : DecidableEq T
  /-- `Numerics`: two total functions per representation (43_table_types.md R142), by default the reference definitions. -/
  numerics : Numerics := .reference
  /-- `R`, `L`, `MIN_TABLE_LEN`, `forkingFactor`, `numericRepresentation`, `IDXW`, `DRIVE_ORDER`. -/
  config : Config

/-- What an instruction does in a machine of any sample type: each meaning is one definition for all of them. `exec` is this at
`Sample`. -/
def execAt (i : Instr) (s : State T) : Host.Outcome (State T) Fault Refusal :=
  match i with
  | .permute stageIndex timeOffset => execPermute stageIndex timeOffset s

/-- The step of a machine of any sample type. `step` is this at `Sample`. -/
def stepAt (s : State T) : Host.Outcome (State T) Fault Refusal := runNextEvent execAt s

/-- The machine that a configuration record gives: the step relation with the record as its parameter (10_state.md R26). -/
def Parameters.machine (P : Parameters) : Host.Core :=
  { State := State P.T, Fault := Fault, Refusal := Refusal, step := stepAt, reset := State.resetOf P.config P.T }

/-- The function and the target type of `TruncatingCast` in an instance, for its own representation (43_table_types.md R134, R142). -/
def Parameters.truncatingCast (P : Parameters) :
    Except FaultRecord (ElementType × (Operand P.config.rep → Operand P.config.rep)) :=
  Machine.truncatingCast P.numerics P.config.rep

/-- The function and the target type of `RoundingSaturatingCast` in an instance (43_table_types.md R134, R142). -/
def Parameters.roundingSaturatingCast (P : Parameters) :
    Except FaultRecord (ElementType × (Operand P.config.rep → Operand P.config.rep)) :=
  Machine.roundingSaturatingCast P.numerics P.config.rep

/-- The record behind the host's interface: samples are the tokens of `Sample`, `Numerics` is the default (log entries 2 and 13). -/
def Parameters.ofConfig (c : Config) : Parameters := { T := Sample, eqT := inferInstance, config := c }

end Sys2Proof.Machine
end

