-- ==== Sys2Proof/Safety.lean ====
section
/-!
DEFINITION. The named premises a claim may use (70_reset_and_hazards.md R183), the end of a run (60_exceptions.md R168), and the
invariant every step keeps.
-/

namespace Sys2Proof.Machine

variable {T : Type}

/-- `Drainable(R, L)` (70_reset_and_hazards.md R183): well-formed, and `R^2` divides `L`. -/
abbrev Drainable (c : Config) : Prop := configOk c ∧ drainable c

/-- `HandedOff` (70_reset_and_hazards.md R183). -/
abbrev HandedOff (s : State T) : Prop := s.phase = .drain

/-- `AfterReset` (70_reset_and_hazards.md R183): the state of 10_state.md R33, whatever the run's list. -/
abbrev AfterReset (s : State T) : Prop := { s with inputs := [] } = State.resetOf s.config T

/-- `FullyPopulated` (70_reset_and_hazards.md R183). -/
abbrev FullyPopulated (s : State T) : Prop :=
  ∀ l < s.config.radix, ∀ o < depthOf s.config, populated s.banks l o = true

/-- The `R` source elements of `(s, t)` are populated (40_permute.md R80). -/
abbrev SourcesPopulated (st : State T) (s t : Nat) : Prop :=
  ∀ r < st.config.radix,
    populated st.banks (sourceLane st.config.radix s r) (sourceOffset t r) = true

/-- The item is none of `LaneWrite`, `HandOff`, `Release` (70_reset_and_hazards.md R183, `QuietHost`). -/
def quietEvent : Event T → Bool
  | .laneWrite _ _ _ => false
  | .handOff => false
  | .release => false
  | _ => true

/-- `QuietHost` (70_reset_and_hazards.md R183): no host step on the banks is left in the run. -/
abbrev QuietHost (s : State T) : Prop := ∀ e ∈ s.inputs, quietEvent e = true

/-- `DefaultDrive` (70_reset_and_hazards.md R183). -/
abbrev DefaultDrive (c : Config) : Prop := c.driveOrder = .blockMajor

/-- `CanonicalFill(x)` (70_reset_and_hazards.md R183): canonical sample `n` stands where the layout of 41_drain.md R105 has it. -/
abbrev CanonicalFill (s : State T) (x : List T) : Prop :=
  x.length = s.config.length ∧
    ∀ n < s.config.length,
      readElement s.banks (layoutLane s.config.radix n) (layoutOffset s.config.radix n) = x[n]?

/-- The run ended successfully: its list is exhausted and no fault was recorded (60_exceptions.md R168). -/
abbrev SuccessfulEnd (s : State T) : Prop := s.inputs = [] ∧ s.fault = none

/-- The command's `R` reads cover bank element `(l, o)` (41_drain.md R102). -/
abbrev readsElement (c : Config) (cmd : Nat × Nat) (l o : Nat) : Prop :=
  ∃ r < c.radix, sourceLane c.radix cmd.1 r = l ∧ sourceOffset cmd.2 r = o

/-- The recorded fault describes what is wrong in the state that holds it: the state of the faulting operation, which the fault
left unchanged (60_exceptions.md R150 to R157, R161, R167). -/
def recordGenuine (s : State T) : FaultRecord → Prop
  | .cfgRadixNotPow2 R => R = s.config.radix ∧ isPowerOfTwo s.config.radix = false
  | .cfgLength L R =>
    L = s.config.length ∧ R = s.config.radix ∧ isPowerOfTwo s.config.radix = true ∧
      (s.config.length = 0 ∨ s.config.length % s.config.radix ≠ 0)
  | .cfgNoSizingRule (.forkingFactor f) => f = s.config.forkingFactor ∧ f ≤ 0
  | .cfgNoSizingRule (.wordLength W) =>
    W < 1 ∧ typingFault s.config.rep = some (.cfgNoSizingRule (.wordLength W))
  | .stageIndexRange i => s.phase = .drain ∧ (i < 0 ∨ (s.config.radix : Int) ≤ i)
  | .timeOffsetRange t => s.phase = .drain ∧ (t < 0 ∨ (depthOf s.config : Int) ≤ t)
  | .sourceOffsetRange t rFirst =>
    s.phase = .drain ∧ 0 ≤ t ∧ t < (depthOf s.config : Int) ∧ rFirst = (depthOf s.config : Int) - t ∧
      0 < rFirst ∧ rFirst < (s.config.radix : Int)
  | .unpopulatedRead l o =>
    s.phase = .drain ∧ l < s.config.radix ∧ o < depthOf s.config ∧ populated s.banks l o = false
  | .ownershipViolation .permute => s.phase = .fill
  | .ownershipViolation .laneWrite => s.phase = .drain

/-- The invariant: the banks are in canonical form and lie inside the address space of 20_memory.md R40, every emitted vector
has `R` samples (40_permute.md R86), and a set marker records a genuine fault. -/
structure Inv (s : State T) : Prop where
  banksCanonical : s.banks.wf
  banksInRange : ∀ e ∈ s.banks, e.lane < s.config.radix ∧ e.offset < depthOf s.config
  vectorsFull : ∀ v ∈ s.out, v.length = s.config.radix
  markerGenuine : ∀ f, s.fault = some f → recordGenuine s f

/-- An item of the run with every sample replaced by its image under `f`. -/
def relabelEvent {T U : Type} (f : T → U) : Event T → Event U
  | .word nbits w => .word nbits w
  | .command i => .command i
  | .laneWrite l o v => .laneWrite l o (f v)
  | .handOff => .handOff
  | .release => .release
  | .drain => .drain
  | .tableTraits request => .tableTraits request

/-- A state with every sample replaced by its image under `f`, wherever a sample stands. -/
def relabelState {T U : Type} (f : T → U) (s : State T) : State U :=
  { config := s.config
    banks := s.banks.map fun e => ⟨e.lane, e.offset, f e.value⟩
    phase := s.phase
    fault := s.fault
    out := s.out.map (List.map f)
    inputs := s.inputs.map (relabelEvent f) }

/-- An outcome with every sample of its state replaced by its image under `f`. -/
def relabelOutcome {T U : Type} (f : T → U) :
    Host.Outcome (State T) Fault Refusal → Host.Outcome (State U) Fault Refusal
  | .next s => .next (relabelState f s)
  | .fault r => .fault r
  | .refused r => .refused r

/-- The run of `k` steps, stopping at the first stop. -/
def runSteps (k : Nat) (s : State) : Host.Outcome State Fault Refusal :=
  match k with
  | 0 => .next s
  | k + 1 =>
    match step s with
    | .next t => runSteps k t
    | .fault r => .fault r
    | .refused r => .refused r

end Sys2Proof.Machine
end

