-- ==== Sys2Proof/Certificates/Slice0/Obligations.lean ====
section
/-!
DEFINITION. The statements for the provers, one definition each. Every docstring names the rules of spec/ the statement rests on,
and says where a clause is the model's own choice.
-/

open Sys2Proof Sys2Proof.Machine

/-! ### The command word -/

/-- R63: the encoder is defined exactly on the commands whose indices fit 32 bits, it lays the fields out as `{stageIndex mod 2^32,
timeOffset mod 2^32}`, the two round trips hold, and a command without a word still has its meaning, a fault (for every `R`
and `DEPTH` up to `2^31`). -/
def Obligations.CommandWordRoundTrip : Prop :=
  (∀ s t : Int, -(2 : Int) ^ 31 ≤ s ∧ s ≤ 2 ^ 31 - 1 ∧ -(2 : Int) ^ 31 ≤ t ∧ t ≤ 2 ^ 31 - 1 →
    ∃ w, encode (.permute s t) = some w ∧
      (w.toNat : Int) = s % 2 ^ 32 * 2 ^ 32 + t % 2 ^ 32 ∧ decodeWord w = .permute s t) ∧
  (∀ s t : Int, ¬(-(2 : Int) ^ 31 ≤ s ∧ s ≤ 2 ^ 31 - 1 ∧ -(2 : Int) ^ 31 ≤ t ∧ t ≤ 2 ^ 31 - 1) →
    encode (.permute s t) = none ∧
      ∀ st : State, st.fault = none → configOk st.config → st.config.radix ≤ 2 ^ 31 → depthOf st.config ≤ 2 ^ 31 →
        ∃ f, exec (.permute s t) st = .next (takeFault f st)) ∧
  (∀ w, encode (decodeWord w) = some w)

/-- R61, R63 at every index width: the two round trips hold for words of `2 * n` bits, `n` being the parameter `IDXW`. -/
def Obligations.EveryIndexWidthRoundTrips : Prop :=
  ∀ n, 1 ≤ n →
    (∀ i : Instr, i.wellFormedAt n = true → ∃ w, encodeAt n i = some w ∧ decodeAt n w = i) ∧
    (∀ i : Instr, i.wellFormedAt n = false → encodeAt n i = none) ∧
    (∀ w, encodeAt n (decodeAt n w) = some w)

/-- R62: decode is total, the upper 32 bits read as two's complement are the stage index, the lower 32 the time offset. -/
def Obligations.DecodeReadsTwoSignedFields : Prop :=
  ∀ w : CmdWord, ∃ s t : Int, decodeWord w = .permute s t ∧
    s = (if w.toNat / 2 ^ 32 < 2 ^ 31 then (w.toNat / 2 ^ 32 : Nat) else (w.toNat / 2 ^ 32 : Nat) - 2 ^ 32 : Int) ∧
    t = (if w.toNat % 2 ^ 32 < 2 ^ 31 then (w.toNat % 2 ^ 32 : Nat) else (w.toNat % 2 ^ 32 : Nat) - 2 ^ 32 : Int)

/-- 30_encoding.md section 3 (R64), at every index width: the sub-pattern of rule `s` selects exactly the words whose command has stage
index `s`, for every rule number below `2^(n-1)`; for one that fits the field as a negative integer, exactly the words whose stage
index is `s - 2^n`; and for one that does not fit, no word (the model's choice, log entry 22). At the default width the pattern is
match `s * 2^32` under mask `0xFFFFFFFF00000000`. -/
def Obligations.RulePatternSelectsItsStageIndex : Prop :=
  (∀ (n s : Nat) (w : BitVec (2 * n)), 1 ≤ n →
    (s < 2 ^ (n - 1) → (matchesRuleAt n s w = true ↔ ∃ t, decodeAt n w = .permute s t)) ∧
    (2 ^ (n - 1) ≤ s → s < 2 ^ n →
      (matchesRuleAt n s w = true ↔ ∃ t, decodeAt n w = .permute ((s : Int) - 2 ^ n) t)) ∧
    (2 ^ n ≤ s → matchesRuleAt n s w = false)) ∧
  (∀ (s : Nat) (w : CmdWord), matchesRule s w = true ↔ (w &&& 0xFFFFFFFF00000000#64).toNat = s * 2 ^ 32)

/-- 95_test_vectors.md section 2.3: words written out there decode to the commands given there. -/
def Obligations.SpecWordsDecode : Prop :=
  decodeWord 0x0000000000000000#64 = .permute 0 0 ∧
  decodeWord 0x0000000300000004#64 = .permute 3 4 ∧
  decodeWord 0xFFFFFFFF00000000#64 = .permute (-1) 0 ∧
  decodeWord 0x00000000FFFFFFFF#64 = .permute 0 (-1) ∧
  decodeWord 0x7FFFFFFF80000000#64 = .permute 2147483647 (-2147483648) ∧
  decodeWord 0x8000000000000001#64 = .permute (-2147483648) 1

/-- R21, R66: the step runs the command at the head of the run's list, decoded at the instance's `IDXW`, on the state that holds the
rest; a word placed by `withFetchWord` is what the very next step runs; a word that has not the `2 * IDXW` bits of a command is
refused. The list is the model's own field (log entry 3), and so is the refusal (log entry 10). -/
def Obligations.StepRunsTheSuppliedCommand : Prop :=
  (∀ (s : State) (w : BitVec (2 * s.config.indexWidth)) (rest : List Event), s.inputs = .word _ w :: rest →
    step s = exec (decodeAt s.config.indexWidth w) { s with inputs := rest }) ∧
  (∀ (s : State) (i : Instr) (rest : List Event), s.inputs = .command i :: rest →
    step s = exec i { s with inputs := rest }) ∧
  (∀ (s : State) (w : BitVec (2 * s.config.indexWidth)),
    step (s.withFetchWord (2 * s.config.indexWidth) w.toNat) = exec (decodeAt s.config.indexWidth w) s) ∧
  (∀ (s : State) (w : CmdWord), s.config.indexWidth = 32 → step (s.withFetchWord 64 w.toNat) = exec (decodeWord w) s) ∧
  (∀ (s : State) (nbits : Nat) (w : BitVec nbits) (rest : List Event), s.inputs = .word nbits w :: rest →
    nbits ≠ 2 * s.config.indexWidth → s.fault = none → configOk s.config →
    step s = .refused (.notACommandWord nbits))

/-! ### PERMUTE -/

/-- R80, R85, R86, and fact (1) of R183: on a running instance in phase `DRAIN`, a valid command whose `R` source elements are
populated completes. It appends one vector of exactly `R` samples, lane `r` being the value at bank `(s + r) mod R`, offset `t + r`,
unchanged, and it changes nothing else. -/
def Obligations.PermuteAppendsItsDiagonal : Prop :=
  ∀ (st : State) (s t : Nat), st.fault = none → configOk st.config → HandedOff st →
    s < st.config.radix → t + st.config.radix ≤ depthOf st.config → SourcesPopulated st s t →
    ∃ v : List Sample, v.length = st.config.radix ∧
      (∀ r < st.config.radix, v[r]? = readElement st.banks ((s + r) % st.config.radix) (t + r)) ∧
      exec (.permute s t) st = .next { st with out := st.out ++ [v] }

/-- R82 with R154, R155, R156 and R167: the five tests in their order, the first that fails being the only fault, recorded with its
information, and nothing else changed; when none fails no fault is recorded and one vector is appended. -/
def Obligations.PermuteReportsTheFirstFailingTest : Prop :=
  ∀ (st : State) (s t : Int), st.fault = none → configOk st.config →
    (st.phase = .fill →
      exec (.permute s t) st = .next { st with fault := some (.ownershipViolation .permute) }) ∧
    (st.phase = .drain → (s < 0 ∨ (st.config.radix : Int) - 1 < s) →
      exec (.permute s t) st = .next { st with fault := some (.stageIndexRange s) }) ∧
    (st.phase = .drain → 0 ≤ s → s ≤ (st.config.radix : Int) - 1 → (t < 0 ∨ (depthOf st.config : Int) - 1 < t) →
      exec (.permute s t) st = .next { st with fault := some (.timeOffsetRange t) }) ∧
    (st.phase = .drain → 0 ≤ s → s ≤ (st.config.radix : Int) - 1 → 0 ≤ t → t ≤ (depthOf st.config : Int) - 1 →
      (depthOf st.config : Int) - 1 < t + ((st.config.radix : Int) - 1) →
      exec (.permute s t) st =
        .next { st with fault := some (.sourceOffsetRange t ((depthOf st.config : Int) - t)) }) ∧
    (st.phase = .drain → validCommand st.config s t → ∀ r < st.config.radix,
      (∀ r' < r, populated st.banks ((s.toNat + r') % st.config.radix) (t.toNat + r') = true) →
      populated st.banks ((s.toNat + r) % st.config.radix) (t.toNat + r) = false →
      exec (.permute s t) st =
        .next { st with
          fault := some (.unpopulatedRead ((s.toNat + r) % st.config.radix) (t.toNat + r)) }) ∧
    (st.phase = .drain → validCommand st.config s t → SourcesPopulated st s.toNat t.toNat →
      ∃ v : List Sample, exec (.permute s t) st = .next { st with out := st.out ++ [v] })

/-- R89: every command on a running instance has exactly one outcome, a result or a named fault; it is a result exactly when the
phase is `DRAIN`, the command is valid (R81) and its source elements are populated. -/
def Obligations.PermuteSucceedsExactlyWhenItsChecksPass : Prop :=
  ∀ (st : State) (s t : Int), st.fault = none → configOk st.config →
    ∃ u, exec (.permute s t) st = .next u ∧
      (u.fault = none ↔
        HandedOff st ∧ validCommand st.config s t ∧ SourcesPopulated st s.toNat t.toNat)

/-- R81, R96 (g): when `L < R^2` no command is valid and every command faults; with a valid stage index and time offset 0 the
fault is `SOURCE_OFFSET_RANGE(0, r_first = DEPTH)`. -/
def Obligations.ShortTransformHasNoValidCommand : Prop :=
  ∀ st : State, st.fault = none → configOk st.config → st.config.length < st.config.radix * st.config.radix →
    (∀ s t : Int, ¬validCommand st.config s t ∧ ∃ f, exec (.permute s t) st = .next (takeFault f st)) ∧
    (HandedOff st → ∀ s : Nat, s < st.config.radix →
      exec (.permute s 0) st = .next (takeFault (.sourceOffsetRange 0 (depthOf st.config)) st))

/-- The frame of PERMUTE (R23, R80, R86, R161): configuration, banks, phase and the rest of the run are unchanged, every element
reads as before, and either one vector of `R` samples is appended with the marker as it was, or the marker is set and OUT is as
it was. -/
def Obligations.PermuteFrame : Prop :=
  ∀ (st u : State) (s t : Int), exec (.permute s t) st = .next u →
    u.config = st.config ∧ u.banks = st.banks ∧ u.phase = st.phase ∧ u.inputs = st.inputs ∧
      (∀ l o, readElement u.banks l o = readElement st.banks l o) ∧
      ((u.fault = st.fault ∧ ∃ v : List Sample, v.length = st.config.radix ∧ u.out = st.out ++ [v]) ∨
        (u.out = st.out ∧ ∃ f, u.fault = some f))

/-- R20, R86, R89: what a command does depends on the configuration, the phase and its own `R` source elements alone: two running
states that agree on these take the same fault or append the same vector, whatever else they hold. -/
def Obligations.PermuteSeesOnlyItsDiagonal : Prop :=
  ∀ (st st' u u' : State) (s t : Int), st.config = st'.config → st.phase = st'.phase →
    st.fault = none → st'.fault = none →
    (∀ r < st.config.radix,
      readElement st.banks (sourceLane st.config.radix s.toNat r) (sourceOffset t.toNat r) =
        readElement st'.banks (sourceLane st.config.radix s.toNat r) (sourceOffset t.toNat r)) →
    exec (.permute s t) st = .next u → exec (.permute s t) st' = .next u' →
    u.fault = u'.fault ∧ ∃ added : List (List Sample), u.out = st.out ++ added ∧ u'.out = st'.out ++ added

/-- R8, R85, R96 (i), for every sample type: the machine never looks inside a sample. For any two types and any function from one to
the other, replacing every sample by its image before an instruction or a step, or after it, is the same. The machine behind the
host's interface is the one of the type `Sample` (the model's choice, log entry 2). -/
def Obligations.StepCommutesWithRelabellingSamples : Prop :=
  (∀ (T U : Type) (f : T → U) (i : Instr) (s : State T),
    execAt i (relabelState f s) = relabelOutcome f (execAt i s)) ∧
  (∀ (T U : Type) (f : T → U) (s : State T), stepAt (relabelState f s) = relabelOutcome f (stepAt s)) ∧
  (∀ (i : Instr) (s : State), exec i s = execAt i s) ∧ (∀ s : State, step s = stepAt s) ∧
  Sys2Proof.core = (Parameters.ofConfig .cfgA).machine

/-- R87: for every fixed stage index the map from output lane to source lane is a bijection; its inverse is `(l - s) mod R`, and
bank `l` is read at offset `t + ((l - s) mod R)`. -/
def Obligations.SourceLaneIsABijection : Prop :=
  ∀ R s : Nat, s < R →
    (∀ r < R, sourceLane R s r < R) ∧
    (∀ l < R, ∃! r, r < R ∧ sourceLane R s r = l) ∧
    (∀ l < R, outputLane R s l < R ∧ (outputLane R s l : Int) = ((l : Int) - s) % R ∧
      sourceLane R s (outputLane R s l) = l) ∧
    (∀ t, ∀ l < R, ∀ r < R, sourceLane R s r = l → sourceOffset t r = t + outputLane R s l)

/-- R83: on the valid domain the sum stays within `2R - 2`, the reduced lane within `R - 1`, the mask form agrees, the
two explicit cases hold, `log2 R + 1` bits hold the sum and `log2 R` bits with the carry discarded hold the lane. -/
def Obligations.SourceLaneEqualsItsMaskForm : Prop :=
  ∀ R : Nat, isPowerOfTwo R = true →
    (∀ x, x % R = x &&& (R - 1)) ∧
    (∀ s r, s ≤ R - 1 → r ≤ R - 1 →
      s + r ≤ 2 * R - 2 ∧ sourceLane R s r ≤ R - 1 ∧ sourceLane R s r = sourceLaneMask R s r ∧
      (s + r ≤ R - 1 → sourceLane R s r = s + r) ∧ (R ≤ s + r → sourceLane R s r = s + r - R) ∧
      s + r < 2 ^ (Nat.log2 R + 1) ∧ sourceLane R s r = (s + r) % 2 ^ Nat.log2 R) ∧
    (R = 1 → ∀ s r, sourceLane R s r = 0)

/-- R93: from stage `k` down, for every `s` in `[0, k - 1]`, the chain performs rule `s`; at `k = R` this is the closed form for every
valid stage index, and the rule it selects is `s`. -/
def Obligations.DispatchChainEqualsClosedForm : Prop :=
  (∀ (st : State) (k s t : Nat), 1 ≤ k → s < k → chainOutput st (k - 1) s t = ruleOutput st s t) ∧
  (∀ R s : Nat, s < R → chainRule (R - 1) s = s ∧
    ∀ r, sourceLane R (chainRule (R - 1) s) r = (s + r) % R)

/-- 40_permute.md section 4 and 95_test_vectors.md section 2.4: a valid stage index `s >= 1` is found after `R - s` equality tests, stage
index 0 after all `R - 1`, and no command makes more. The chain's shape is the spec's own decision D8 of 92_eei_decisions.md ("The
chain runs from compile-time stage `k = R` down to `k = 1`"). -/
def Obligations.ChainMakesBoundedlyManyTests : Prop :=
  ∀ R : Nat, 1 ≤ R →
    (∀ s : Nat, s < R → chainTests (R - 1) s = if s = 0 then R - 1 else R - s) ∧
    ∀ s : Int, chainTests (R - 1) s ≤ R - 1

/-- R88: rule `s` reads the banks in the cyclic order `s, s+1, ..., R-1, 0, ..., s-1`, rule 0 is the identity, and rules compose by
adding their numbers modulo `R`. -/
def Obligations.RuleIsACyclicShift : Prop :=
  (∀ R s : Nat, s < R →
    (List.range R).map (sourceLane R s) = (List.range (R - s)).map (s + ·) ++ List.range s) ∧
  (∀ R r : Nat, r < R → sourceLane R 0 r = r) ∧
  (∀ R s s' r : Nat, s < R → s' < R → r < R →
    sourceLane R s' (sourceLane R s r) = sourceLane R ((s + s') % R) r) ∧
  (List.range 4).map (sourceLane 4 0) = [0, 1, 2, 3] ∧ (List.range 4).map (sourceLane 4 1) = [1, 2, 3, 0] ∧
  (List.range 4).map (sourceLane 4 2) = [2, 3, 0, 1] ∧ (List.range 4).map (sourceLane 4 3) = [3, 0, 1, 2]

/-! ### The banks, the phase and the host steps -/

/-- R45: an in-range `LaneWrite` in phase `FILL` writes and populates its element and changes nothing else; an in-range one in phase
`DRAIN` is `OWNERSHIP_VIOLATION`; one out of range, in phase `FILL`, is a step the producer does not have. -/
def Obligations.LaneWriteStoresOneElement : Prop :=
  ∀ (s : State) (l o : Int) (v : Sample), s.fault = none → configOk s.config →
    (addressInRange s.config l o → s.phase = .fill →
      ∃ m, hostLaneWrite l o v s = .next { s with banks := m } ∧
        readElement m l.toNat o.toNat = some v ∧ populated m l.toNat o.toNat = true ∧
        ∀ l' o' : Nat, ¬((l' : Int) = l ∧ (o' : Int) = o) → readElement m l' o' = readElement s.banks l' o') ∧
    (addressInRange s.config l o → s.phase = .drain →
      hostLaneWrite l o v s = .next { s with fault := some (.ownershipViolation .laneWrite) }) ∧
    (¬addressInRange s.config l o → s.phase = .fill → hostLaneWrite l o v s = .fault (.producerStuck l o))

/-- 20_memory.md section 2: a `LaneWrite` out of range is a step the producer does not have, in either phase, and it answers a next state
(the write, or the fault of phase `DRAIN`) exactly when it is in range. That the address is looked at before the phase is the
model's reading (log entry 7). -/
def Obligations.OutOfRangeLaneWriteHasNoStep : Prop :=
  ∀ (s : State) (l o : Int) (v : Sample), s.fault = none → configOk s.config →
    (hostLaneWrite l o v s = .fault (.producerStuck l o) ↔ ¬addressInRange s.config l o) ∧
    ((∃ t, hostLaneWrite l o v s = .next t) ↔ addressInRange s.config l o)

/-- 10_state.md section 2 (R25): `HandOff` and `Release` are always admitted on a running instance and change the phase alone. That
this holds in the phase they lead to as well is the model's reading (log entry 8). -/
def Obligations.HandOffAndReleaseChangeThePhaseAlone : Prop :=
  ∀ s : State, s.fault = none → configOk s.config →
    hostHandOff s = .next { s with phase := .drain } ∧ hostRelease s = .next { s with phase := .fill }

/-- R23, R40: the only writer of the banks is the producer's `LaneWrite`, in phase `FILL`, inside the address space. -/
def Obligations.OnlyLaneWriteChangesTheBanks : Prop :=
  ∀ s t : State, step s = .next t → t.banks ≠ s.banks →
    ∃ l o v rest, s.inputs = .laneWrite l o v :: rest ∧ s.phase = .fill ∧ addressInRange s.config l o ∧
      t.banks = writeElement s.banks l.toNat o.toNat v

/-- R25, R50: the phase changes only at `HandOff` and `Release`. R26: no step writes the configuration. -/
def Obligations.PhaseChangesOnlyAtHandOffAndRelease : Prop :=
  ∀ s t : State, step s = .next t →
    t.config = s.config ∧
    (t.phase ≠ s.phase →
      (∃ rest, s.inputs = .handOff :: rest ∧ t.phase = .drain) ∨
      (∃ rest, s.inputs = .release :: rest ∧ t.phase = .fill))

/-- R31: OUT is empty at reset, each successful PERMUTE appends one vector of `R` samples, and nothing else changes it; element
`c * R + r` of the flat stream is lane `r` of vector `c`, given that every vector has `R` samples. -/
def Obligations.OutputHistoryGrowsOnlyByPermute : Prop :=
  (∀ c, (State.resetOf c).out = []) ∧
  (∀ s t : State, step s = .next t →
    t.out = s.out ∨
      ∃ (v : List Sample) (i : Instr) (rest : List Event), t.out = s.out ++ [v] ∧ t.fault = none ∧
        (s.inputs = .command i :: rest ∨
          ∃ nbits w, s.inputs = .word nbits w :: rest ∧ decodeSupplied s.config.indexWidth nbits w = .ok i)) ∧
  (∀ (s t : State) (i : Instr), exec i s = .next t → t.fault = none →
    ∃ v : List Sample, v.length = s.config.radix ∧ t.out = s.out ++ [v]) ∧
  (∀ (s : State) (R c r : Nat), (∀ v ∈ s.out, v.length = R) → r < R →
    (flatOutput s)[c * R + r]? = s.out[c]?.bind fun v => v[r]?)

/-- R24: every populated mark is false after reset, and no step clears one. -/
def Obligations.PopulatedMarksAreNeverCleared : Prop :=
  (∀ c l o, populated (State.resetOf c).banks l o = false) ∧
  (∀ s t : State, step s = .next t → ∀ l o, populated s.banks l o = true → populated t.banks l o = true)

/-- R44, R50, R174: an element keeps the value last written to it through any number of steps in which the producer does not write
it again, across hand-offs, releases and drains. -/
def Obligations.ElementKeepsItsLastWrittenValue : Prop :=
  ∀ (k : Nat) (s t : State) (l o : Nat) (v : Sample), readElement s.banks l o = some v →
    (∀ w, Event.laneWrite l o w ∉ s.inputs) → runSteps k s = .next t → readElement t.banks l o = some v

/-! ### Faults -/

/-- 60_exceptions.md section 2 (R161, R162): once the marker is set no agent has a step, whatever the item, and so no step clears the
marker. That the run's end is answered as `Fault.halted` is the model's form of it (log entry 4). -/
def Obligations.FaultIsFinal : Prop :=
  ∀ (s : State) (f : FaultRecord), s.fault = some f →
    (∀ i, exec i s = .fault (.halted f)) ∧ (∀ e, performEvent exec e s = .fault (.halted f)) ∧
      step s = .fault (.halted f)

/-- 60_exceptions.md section 2 (R161): a step that records a fault has no other effect: OUT, banks, phase and configuration are as they
were, and the run's list has lost the faulting item (the list is the model's, log entries 3 and 4). -/
def Obligations.FaultEntryHasNoOtherEffect : Prop :=
  ∀ (s t : State) (f : FaultRecord), step s = .next t → t.fault = some f →
    t = { s with fault := some f, inputs := s.inputs.tail }

/-- R150: the numeric codes of the eight faults. -/
def Obligations.FaultCodesAreTheTable : Prop :=
  (∀ r, (FaultRecord.cfgRadixNotPow2 r).code = 1) ∧ (∀ l r, (FaultRecord.cfgLength l r).code = 2) ∧
  (∀ i, (FaultRecord.cfgNoSizingRule i).code = 3) ∧ (∀ s, (FaultRecord.stageIndexRange s).code = 4) ∧
  (∀ t, (FaultRecord.timeOffsetRange t).code = 5) ∧ (∀ t r, (FaultRecord.sourceOffsetRange t r).code = 6) ∧
  (∀ l o, (FaultRecord.unpopulatedRead l o).code = 7) ∧ (∀ op, (FaultRecord.ownershipViolation op).code = 8)

/-! ### Configuration, reset, invariant -/

/-- R6, R151: the test `R >= 1` and `R & (R - 1) = 0` accepts exactly the powers of two, 1 among them (D28). -/
def Obligations.PowerOfTwoTestIsExact : Prop :=
  ∀ n : Nat, isPowerOfTwo n = true ↔ ∃ k, n = 2 ^ k

/-- R151, R152, R160: configuring a PermutationNetwork faults with code 1 exactly when `R` is no power of two, otherwise with code
2 exactly when `L < 1` or `R` does not divide `L`, otherwise not at all; and an instance so misconfigured takes that fault at its
first step, before any other effect. That the item at hand is consumed is the model's choice (log entry 5). -/
def Obligations.MisconfiguredNetworkFaults : Prop :=
  (∀ R L : Int, (¬∃ k : Nat, R = 2 ^ k) → networkConfigFault R L = some (.cfgRadixNotPow2 R)) ∧
  (∀ R L : Int, (∃ k : Nat, R = 2 ^ k) → (L < 1 ∨ ¬R ∣ L) → networkConfigFault R L = some (.cfgLength L R)) ∧
  (∀ R L : Int, (∃ k : Nat, R = 2 ^ k) → 1 ≤ L → R ∣ L → networkConfigFault R L = none) ∧
  (∀ (s : State) (f : FaultRecord), s.fault = none → configFault s.config = some f →
    step s = .next { s with fault := some f, inputs := s.inputs.tail } ∧
    ∀ i, exec i s = .next { s with fault := some f })

/-- R33, R170: what reset leaves, for every configuration. Which configuration the fixed `State.reset` carries and that no item
of a run is left are the model's choices (log entries 1 and 3), and this statement says nothing of them. -/
def Obligations.ResetLeavesTheTabledValues : Prop :=
  ∀ c : Config,
    (∀ l o, readElement (State.resetOf c).banks l o = none ∧ populated (State.resetOf c).banks l o = false ∧
      laneRead (State.resetOf c) l o = .error (.unpopulatedRead l o)) ∧
    (State.resetOf c).phase = .fill ∧ (State.resetOf c).fault = none ∧ (State.resetOf c).out = [] ∧
    State.reset = State.resetOf State.reset.config

/-- 70_reset_and_hazards.md section 1 (R171): the first command after reset. In the reset state every command faults with
`OWNERSHIP_VIOLATION`, and in that state with the phase set to `DRAIN` a valid command reads an element never written and faults with
`UNPOPULATED_READ`. The rule for every later command is `Obligations.CommandsFaultBeforeHandOffOrOnUnwrittenElements`. -/
def Obligations.FirstCommandAfterResetFaults : Prop :=
  ∀ c : Config, configOk c →
    (∀ s t : Int, exec (.permute s t) (State.resetOf c) =
      .next { State.resetOf c with fault := some (.ownershipViolation .permute) }) ∧
    (∀ s t : Nat, s < c.radix → t + c.radix ≤ depthOf c →
      exec (.permute s t) { State.resetOf c with phase := .drain } =
        .next { State.resetOf c with phase := .drain, fault := some (.unpopulatedRead s t) })

/-- R171: however a run from reset went so far (no fault recorded), every command before its first `HandOff` faults with
`OWNERSHIP_VIOLATION`; and in phase `DRAIN` every valid command one of whose source elements the run never writes faults with
`UNPOPULATED_READ`, at that output lane or at an earlier one. No command answers a value. -/
def Obligations.CommandsFaultBeforeHandOffOrOnUnwrittenElements : Prop :=
  ∀ (c : Config) (es : List Event) (k : Nat) (st : State), configOk c →
    runSteps k { State.resetOf c with inputs := es } = .next st → st.fault = none →
    (Event.handOff ∉ es → ∀ s t : Int,
      exec (.permute s t) st = .next { st with fault := some (.ownershipViolation .permute) }) ∧
    (∀ s t : Nat, st.phase = .drain → s < c.radix → t + c.radix ≤ depthOf c → ∀ r < c.radix,
      (∀ v, Event.laneWrite (sourceLane c.radix s r) (sourceOffset t r) v ∉ es) →
      ∃ r' ≤ r, populated st.banks (sourceLane c.radix s r') (sourceOffset t r') = false ∧
        exec (.permute s t) st = .next { st with
          fault := some (.unpopulatedRead (sourceLane c.radix s r') (sourceOffset t r')) })

/-- The invariant holds after reset, for every configuration. -/
def Obligations.ResetMeetsTheInvariant : Prop := ∀ c, Inv (State.resetOf c)

/-- Every step keeps the invariant, from every state that meets it: the banks stay canonical and inside the address space (R40), every
emitted vector has `R` samples (R86), and a set marker describes a condition that really holds (R150 to R157, R167). -/
def Obligations.StepKeepsTheInvariant : Prop :=
  ∀ s t : State, Inv s → step s = .next t → Inv t

/-! ### DRAIN -/

/-- 41_drain.md, shape condition (R101): `DRAIN` is `refused(DRAIN_SHAPE)` exactly when `R^2` does not divide `L`, equivalently when `R`
does not divide `DEPTH`. Otherwise, by the model's choice (log entry 9), it is refused under another name exactly when the listed
order is no rearrangement of the drive set, and else answers a next state; the default order is always legal. -/
def Obligations.DrainIsRefusedWithoutItsShape : Prop :=
  ∀ s : State, s.fault = none → configOk s.config →
    (hostDrain s = .refused .drainShape ↔ ¬(s.config.radix * s.config.radix ∣ s.config.length)) ∧
    (hostDrain s = .refused .driveOrderNotADriveSet ↔
      s.config.radix * s.config.radix ∣ s.config.length ∧ driveOrderLegal s.config = false) ∧
    ((∃ t, hostDrain s = .next t) ↔
      s.config.radix * s.config.radix ∣ s.config.length ∧ driveOrderLegal s.config = true) ∧
    (DefaultDrive s.config → driveOrderLegal s.config = true) ∧
    (∀ cmds, s.config.driveOrder = .listed cmds →
      (driveOrderLegal s.config = true ↔ cmds.Perm (driveSet s.config))) ∧
    (s.config.radix * s.config.radix ∣ s.config.length ↔ s.config.radix ∣ depthOf s.config)

/-- R103 (with R100, R106): in the default order `DRAIN` supplies exactly `L/R` commands, the `c`-th being
`(c mod R, (c div R) * R)`; block by block, stage index ascending within a block, so that the time offset never decreases. That
the supplying is one step is the model's choice (log entry 9). -/
def Obligations.DrainSuppliesTheDriveSequence : Prop :=
  ∀ (s : State) (rest : List Event), s.fault = none → Drainable s.config → DefaultDrive s.config →
    s.inputs = .drain :: rest →
    ∃ cmds : List (Nat × Nat),
      step s = .next { s with inputs := (cmds.map fun p => .command (.permute p.1 p.2)) ++ rest } ∧
      cmds.length = s.config.length / s.config.radix ∧
      (∀ c < s.config.length / s.config.radix,
        cmds[c]? = some (c % s.config.radix, c / s.config.radix * s.config.radix)) ∧
      cmds = (List.range (s.config.length / (s.config.radix * s.config.radix))).flatMap
        (fun k => (List.range s.config.radix).map fun i => (i, k * s.config.radix)) ∧
      cmds.Pairwise (fun p q => p.2 ≤ q.2)

/-- R102, first half: the drive set has `L/R` commands without repetition, all valid, and the drive sequence is a rearrangement of it. -/
def Obligations.DriveSequenceEnumeratesTheDriveSet : Prop :=
  ∀ c : Config, Drainable c →
    (driveSet c).length = c.length / c.radix ∧ (driveSet c).Nodup ∧
    (∀ s t : Nat, (s, t) ∈ driveSet c ↔ s < c.radix ∧ ∃ k < c.length / (c.radix * c.radix), t = k * c.radix) ∧
    (∀ p ∈ driveSet c, validCommand c p.1 p.2) ∧
    (driveSequence c).Perm (driveSet c)

/-- R102, second half: the drive set is the only one. Any list of in-bounds commands that together read every bank element
exactly once is a rearrangement of the drive set, and it exists only when `R^2 | L`. -/
def Obligations.ExactCoverIsTheDriveSet : Prop :=
  ∀ (c : Config) (cmds : List (Nat × Nat)), configOk c → (∀ p ∈ cmds, validCommand c p.1 p.2) →
    (∀ l < c.radix, ∀ o < depthOf c, cmds.countP (fun p => decide (readsElement c p l o)) = 1) →
    drainable c ∧ cmds.Perm (driveSet c)

/-- R104: full-drain coverage. With `DRIVE(i) = (s, t)`, command `i` of the default drive reads at output lane `r` the bank element
`(sourceLane, sourceOffset)`, which is `((i mod R + r) mod R, (i div R) * R + r)`; this map from `[0, L/R) x [0, R)` to
`[0, R) x [0, DEPTH)` is a bijection; the time offsets it uses are the multiples of `R` in `[0, DEPTH)`. -/
def Obligations.FullDrainCoversEveryElementOnce : Prop :=
  ∀ c : Config, Drainable c →
    (∀ i, (driveSequence c)[i]? = if i < c.length / c.radix then some (driveCommand c.radix i) else none) ∧
    (∀ i < c.length / c.radix, ∀ r < c.radix,
      sourceLane c.radix (driveCommand c.radix i).1 r = (i % c.radix + r) % c.radix ∧
      sourceOffset (driveCommand c.radix i).2 r = i / c.radix * c.radix + r ∧
      sourceLane c.radix (driveCommand c.radix i).1 r < c.radix ∧
      sourceOffset (driveCommand c.radix i).2 r < depthOf c) ∧
    (∀ l < c.radix, ∀ o < depthOf c, ∃! p : Nat × Nat,
      p.1 < c.length / c.radix ∧ p.2 < c.radix ∧
        sourceLane c.radix (driveCommand c.radix p.1).1 p.2 = l ∧
        sourceOffset (driveCommand c.radix p.1).2 p.2 = o) ∧
    (∀ t, (∃ i < c.length / c.radix, (driveCommand c.radix i).2 = t) ↔ c.radix ∣ t ∧ t < depthOf c)

/-- R108: the coverage holds for every legal drive order, not only the default: each bank element is read by exactly one
command of the drain. -/
def Obligations.EveryDriveOrderCoversOnce : Prop :=
  ∀ c : Config, Drainable c → driveOrderLegal c = true →
    (drainCommands c).length = c.length / c.radix ∧
    ∀ l < c.radix, ∀ o < depthOf c,
      (drainCommands c).countP (fun p => decide (readsElement c p l o)) = 1

/-- R106, R107: under `Drainable`, `NoFault`, `HandedOff` and `FullyPopulated`, in any legal drive order, a `DRAIN` performs all its
`L/R` commands without a fault and emits exactly `L/R` vectors of `R` samples, leaving banks, phase and the rest of the run as
they were. The one step more than `L/R` is the supplying of the commands (log entry 9). -/
def Obligations.DrainCompletesWithoutFault : Prop :=
  ∀ (s : State) (rest : List Event), s.fault = none → Drainable s.config → driveOrderLegal s.config = true →
    HandedOff s → FullyPopulated s → s.inputs = .drain :: rest →
    ∃ vs : List (List Sample), vs.length = s.config.length / s.config.radix ∧
      (∀ v ∈ vs, v.length = s.config.radix) ∧ vs.flatten.length = s.config.length ∧
      runSteps (s.config.length / s.config.radix + 1) s = .next { s with out := s.out ++ vs, inputs := rest }

/-- Fact (2) of R183 (R104, R105, R107): under its premises, starting with OUT empty, a `DRAIN` ends without a fault and the flat
output stream is the canonical sample sequence `x[0], ..., x[L-1]`. The drive order and the layout are the spec's decisions D9
and D25. -/
def Obligations.DrainEmitsCanonicalOrder : Prop :=
  ∀ (s : State) (x : List Sample), s.fault = none → Drainable s.config → DefaultDrive s.config → HandedOff s →
    FullyPopulated s → CanonicalFill s x → s.out = [] → s.inputs = [.drain] →
    ∃ t, runSteps (s.config.length / s.config.radix + 1) s = .next t ∧ SuccessfulEnd t ∧ flatOutput t = x ∧
      t.banks = s.banks ∧ t.phase = s.phase

/-- R105: the layout of the default drive order and its inverse. -/
def Obligations.CanonicalLayoutIsInvertible : Prop :=
  ∀ R L : Nat, 0 < R → R * R ∣ L →
    (∀ n < L, layoutLane R n < R ∧ layoutOffset R n < L / R ∧
      layoutSample R (layoutLane R n) (layoutOffset R n) = n) ∧
    (∀ l < R, ∀ o < L / R, layoutSample R l o < L ∧
      layoutLane R (layoutSample R l o) = l ∧ layoutOffset R (layoutSample R l o) = o)

/-! ### TableTraits -/

/-- R112, R114, R115, R117 (and the values of 42_table_sizing.md sections 2 and 3 beside them): the descriptor of inputs that have no
fault. -/
def Obligations.DescriptorHoldsTheTabledLengths : Prop :=
  ∀ i : TraitsInput, (∃ k : Nat, i.radix = 2 ^ k) → 1 ≤ i.length → 0 ≤ i.forkingFactor → typingFault i.rep = none →
    ∃ d, tableTraits i = .ok d ∧
      (d.sizing.twiddleTableLength : Int) = i.length / 4 ∧
      d.sizing.extendedTwiddleTableLength = max d.sizing.twiddleTableLength i.minTableLen ∧
      (d.sizing.expTableLength : Int) = (if i.forkingFactor = 0 ∧ i.radix = 2 then 4 else i.radix) ∧
      d.sizing.extendedExpTableLength = max d.sizing.expTableLength i.minTableLen ∧
      (i.forkingFactor = 0 → d.sizing.expTableLengthLastStage = none) ∧
      (0 < i.forkingFactor → ∃ n : Nat, d.sizing.expTableLengthLastStage = some n ∧
        (n : Int) = i.radix / i.forkingFactor) ∧
      d.sizing.extendedExpTableLengthLastStage =
        d.sizing.expTableLengthLastStage.map (fun n => max n i.minTableLen) ∧
      d.sizing.minTableLength = i.minTableLen

/-- 42_table_sizing.md section 1 (R111) and 43_table_types.md section 1 (R131): the derivation ends in the first of the three sizing
faults that applies, in that order, with no descriptor; when none applies it yields a descriptor for every representation that has
a typing, whether or not `R` divides `L`, and for a word length `W < 1` it is `CFG_NO_SIZING_RULE`. That the typing fault comes after
the sizing faults, and what a `CFG_NO_SIZING_RULE` records, are the model's choices (log entry 11). -/
def Obligations.SizingFaultsComeInOrder : Prop :=
  ∀ i : TraitsInput,
    ((¬∃ k : Nat, i.radix = 2 ^ k) → tableTraits i = .error (.cfgRadixNotPow2 i.radix)) ∧
    ((∃ k : Nat, i.radix = 2 ^ k) → i.length < 1 → tableTraits i = .error (.cfgLength i.length i.radix)) ∧
    ((∃ k : Nat, i.radix = 2 ^ k) → 1 ≤ i.length → i.forkingFactor < 0 →
      tableTraits i = .error (.cfgNoSizingRule (.forkingFactor i.forkingFactor))) ∧
    ((∃ k : Nat, i.radix = 2 ^ k) → 1 ≤ i.length → 0 ≤ i.forkingFactor →
      (∀ W I q o, i.rep = .fixed W I q o → W < 1 →
        tableTraits i = .error (.cfgNoSizingRule (.wordLength W)) ∧
        ∀ request, answerRequest i request = .error (.cfgNoSizingRule (.wordLength W))) ∧
      ((∀ W I q o, i.rep = .fixed W I q o → 1 ≤ W) → ∃ d, tableTraits i = .ok d))

/-- 42_table_sizing.md section 2 (R116, R117): with forking factor 0 a request for either last-stage length is `CFG_NO_SIZING_RULE`, and
the rest of the descriptor is still derived: the requests for it, for the other four lengths and for the three types are answered
from it. That the fault records the forking factor with its value is the model's choice of the
"offending input" (log entry 11). -/
def Obligations.AbsentLastStageLengthFaults : Prop :=
  ∀ i : TraitsInput, (∃ k : Nat, i.radix = 2 ^ k) → 1 ≤ i.length → i.forkingFactor = 0 → typingFault i.rep = none →
    answerRequest i .expTableLengthLastStage = .error (.cfgNoSizingRule (.forkingFactor 0)) ∧
    answerRequest i .extendedExpTableLengthLastStage = .error (.cfgNoSizingRule (.forkingFactor 0)) ∧
    ∃ d, tableTraits i = .ok d ∧ answerRequest i .descriptor = .ok (.descriptor d) ∧
      answerRequest i .twiddleTableLength = .ok (.length d.sizing.twiddleTableLength) ∧
      answerRequest i .extendedTwiddleTableLength = .ok (.length d.sizing.extendedTwiddleTableLength) ∧
      answerRequest i .expTableLength = .ok (.length d.sizing.expTableLength) ∧
      answerRequest i .extendedExpTableLength = .ok (.length d.sizing.extendedExpTableLength) ∧
      answerRequest i .elementType = .ok (.type d.elementType) ∧
      answerRequest i .truncatingCastType = .ok (.type d.truncatingCastType) ∧
      answerRequest i .roundingSaturatingCastType = .ok (.type d.roundingSaturatingCastType)

/-- R113: the laws of the clamp. -/
def Obligations.ExtendedLengthIsAClamp : Prop :=
  ∀ m x y : Nat,
    extendedLength m x = max x m ∧ m ≤ extendedLength m x ∧ x ≤ extendedLength m x ∧
    (extendedLength m x = x ↔ m ≤ x) ∧ extendedLength m (extendedLength m x) = extendedLength m x ∧
    (x ≤ y → extendedLength m x ≤ extendedLength m y)

/-- R119: the floor, the value above it, the value below it, and monotonicity, for every length and every floor. -/
def Obligations.TwiddleLengthHasItsFloor : Prop :=
  ∀ (m : Nat) (L L' : Int), 1 ≤ L → 1 ≤ L' →
    m ≤ extendedTwiddleTableLength L m ∧
    ((m : Int) ≤ L / 4 → (twiddleTableLength L : Int) = L / 4 ∧ (extendedTwiddleTableLength L m : Int) = L / 4) ∧
    (L / 4 ≤ (m : Int) → extendedTwiddleTableLength L m = m) ∧
    (L ≤ L' → extendedTwiddleTableLength L m ≤ extendedTwiddleTableLength L' m) ∧
    (L < 64 → extendedTwiddleTableLength L 16 = 16) ∧
    (64 ≤ L → (extendedTwiddleTableLength L 16 : Int) = L / 4)

/-- R120: consulting TableTraits changes nothing of the permutation network: a running instance's request either leaves the state as it
is, exactly when there is an answer, or takes the fault of R153 (codes 1 and 2 having been found at configuration). -/
def Obligations.ConsultingTableTraitsChangesNothing : Prop :=
  ∀ (s : State) (request : TraitsRequest), s.fault = none → configOk s.config →
    ((∃ a, answerRequest (traitsInputOf s.config) request = .ok a) ∧ hostTableTraits request s = .next s) ∨
    (∃ input, answerRequest (traitsInputOf s.config) request = .error (.cfgNoSizingRule input) ∧
      hostTableTraits request s = .next { s with fault := some (.cfgNoSizingRule input) })

/-! ### The element type and the casts -/

/-- R133, R134, R139: the three types the descriptor holds, per representation. -/
def Obligations.DescriptorHoldsTheTypes : Prop :=
  ∀ (i : TraitsInput) (d : TableDescriptor), tableTraits i = .ok d →
    (i.rep = .f32 → d.elementType = .binary32 ∧ d.truncatingCastType = .binary32 ∧
      d.roundingSaturatingCastType = .binary32) ∧
    (i.rep = .f64 → d.elementType = .binary64 ∧ d.truncatingCastType = .binary64 ∧
      d.roundingSaturatingCastType = .binary64) ∧
    (∀ W I q o, i.rep = .fixed W I q o → 1 ≤ W ∧ d.elementType = .fixed W I q o ∧
      d.truncatingCastType = .fixed W I .truncate .none ∧
      d.roundingSaturatingCastType = .fixed W I .roundNearest .saturate)

/-- R135, R136: the two reference casts by their formulas, with powers of two at integer exponents, and the corner cases of R135: one
step above the maximum wraps to the minimum, and the rounding cast clamps there. -/
def Obligations.ReferenceCastsFollowTheirFormulas : Prop :=
  ∀ (W : Nat) (I : Int) (v : Rat), 1 ≤ W →
    castTrunc W I v =
      ((((⌊v * (2 : Rat) ^ ((W : Int) - I)⌋ + 2 ^ (W - 1)) % 2 ^ W - 2 ^ (W - 1) : Int) : Rat) *
        (2 : Rat) ^ (-((W : Int) - I))) ∧
    castRndSat W I v =
      (((min (max ⌊v * (2 : Rat) ^ ((W : Int) - I) + 1 / 2⌋ (-2 ^ (W - 1))) (2 ^ (W - 1) - 1) : Int) : Rat) *
        (2 : Rat) ^ (-((W : Int) - I))) ∧
    castTrunc W I ((2 : Rat) ^ (I - 1)) = -(2 : Rat) ^ (I - 1) ∧
    castRndSat W I ((2 : Rat) ^ (I - 1)) = (2 : Rat) ^ (I - 1) - (2 : Rat) ^ (-((W : Int) - I))

/-- 43_table_types.md section 2 (R133, R134, R138): for float and double both casts are the identity, bit for bit, with the element type
as their target. The spec marks the names binary32 and binary64 as from general knowledge and "bit for bit" as derived; that a float
is its bits is the model's choice (log entry 14). -/
def Obligations.FloatCastsAreTheIdentity : Prop :=
  (∃ f : BitVec 32 → BitVec 32, truncatingCast .reference .f32 = .ok (.binary32, f) ∧ ∀ x, f x = x) ∧
  (∃ f : BitVec 32 → BitVec 32, roundingSaturatingCast .reference .f32 = .ok (.binary32, f) ∧ ∀ x, f x = x) ∧
  (∃ f : BitVec 64 → BitVec 64, truncatingCast .reference .f64 = .ok (.binary64, f) ∧ ∀ x, f x = x) ∧
  (∃ f : BitVec 64 → BitVec 64, roundingSaturatingCast .reference .f64 = .ok (.binary64, f) ∧ ∀ x, f x = x)

/-- 43_table_types.md section 2 (R134) and 00_scope.md section 3 (R11): the two capabilities of a fixed-point format are the two casts of
the instance's `Numerics`, whichever pair that is, with the target type that the cast's name says (the spec's own reading D22); by
default they are the reference casts of its word and integer lengths. A word length `W < 1` has neither; what that fault records is
log entry 11. -/
def Obligations.FixedCapabilitiesAreTheReferenceCasts : Prop :=
  (∀ (N : Numerics) (W : Nat) (I : Int) (q : Rounding) (o : Overflow), 1 ≤ W →
    truncatingCast N (.fixed W I q o) = .ok (.fixed W I .truncate .none, N.trunc (.fixed W I q o)) ∧
    roundingSaturatingCast N (.fixed W I q o) =
      .ok (.fixed W I .roundNearest .saturate, N.rndsat (.fixed W I q o))) ∧
  (∀ (c : Config) (W : Nat) (I : Int) (q : Rounding) (o : Overflow), 1 ≤ W →
    truncatingCast (Parameters.ofConfig c).numerics (.fixed W I q o) =
      .ok (.fixed W I .truncate .none, castTrunc W I) ∧
    roundingSaturatingCast (Parameters.ofConfig c).numerics (.fixed W I q o) =
      .ok (.fixed W I .roundNearest .saturate, castRndSat W I)) ∧
  (∀ (N : Numerics) (W I : Int) (q : Rounding) (o : Overflow), W < 1 →
    truncatingCast N (.fixed W I q o) = .error (.cfgNoSizingRule (.wordLength W)) ∧
    roundingSaturatingCast N (.fixed W I q o) = .error (.cfgNoSizingRule (.wordLength W)))

/-- R140: the result of either reference cast is representable, a representable value is returned unchanged, and so each cast is
idempotent and absorbs the other. -/
def Obligations.CastsAreIdempotent : Prop :=
  ∀ (W : Nat) (I : Int) (v : Rat), 1 ≤ W →
    Representable W I (castTrunc W I v) ∧ Representable W I (castRndSat W I v) ∧
    (Representable W I v → castTrunc W I v = v ∧ castRndSat W I v = v) ∧
    castTrunc W I (castTrunc W I v) = castTrunc W I v ∧
    castRndSat W I (castRndSat W I v) = castRndSat W I v ∧
    castTrunc W I (castRndSat W I v) = castRndSat W I v ∧
    castRndSat W I (castTrunc W I v) = castTrunc W I v

/-- R141: how far a reference cast moves a value, the range of the rounding cast, and monotonicity (of the truncating cast while no
overflow occurs). -/
def Obligations.CastsStayNearTheirOperand : Prop :=
  ∀ (W : Nat) (I : Int) (v w : Rat), 1 ≤ W →
    (rawMin W ≤ ⌊v * pow2 (fracBits W I)⌋ → ⌊v * pow2 (fracBits W I)⌋ ≤ rawMax W →
      castTrunc W I v ≤ v ∧ v < castTrunc W I v + pow2 (-(fracBits W I))) ∧
    (rawMin W ≤ ⌊v * pow2 (fracBits W I) + 1 / 2⌋ → ⌊v * pow2 (fracBits W I) + 1 / 2⌋ ≤ rawMax W →
      |castRndSat W I v - v| ≤ pow2 (-(fracBits W I) - 1)) ∧
    (v ≤ w → castRndSat W I v ≤ castRndSat W I w) ∧
    (v ≤ w → rawMin W ≤ ⌊v * pow2 (fracBits W I)⌋ → ⌊w * pow2 (fracBits W I)⌋ ≤ rawMax W →
      castTrunc W I v ≤ castTrunc W I w) ∧
    -pow2 (I - 1) ≤ castRndSat W I v ∧ castRndSat W I v ≤ pow2 (I - 1) - pow2 (-(fracBits W I))

/-- R142: the reference definitions satisfy all six properties P1 to P6. -/
def Obligations.ReferenceNumericsSatisfyAllSix : Prop := Numerics.reference.Lawful

/-- 93_implementation_defined.md U5, U6, U16: with the overflowed truncation and the tie left as free values, all six properties of R142
still hold, whatever values are drawn (log entry 13). -/
def Obligations.DrawnNumericsSatisfyAllSix : Prop := Numerics.drawn.Lawful

/-! ### The textual form -/

/-- R68: `FILLALL <expr>` populates every element with the value of its expression, one `LaneWrite` an element, and changes nothing
else. -/
def Obligations.FillAllPopulatesEveryElement : Prop :=
  ∀ (s : State) (e : FillExpr) (rest : List Event), s.fault = none → configOk s.config → s.phase = .fill →
    s.inputs = expandStatement s.config (.fillAll e) ++ rest →
    ∃ m, runSteps s.config.length s = .next { s with banks := m, inputs := rest } ∧
      (∀ l < s.config.radix, ∀ o < depthOf s.config, readElement m l o = some ⟨e.value l o⟩) ∧
      ∀ l o, ¬(l < s.config.radix ∧ o < depthOf s.config) → readElement m l o = readElement s.banks l o
end

