-- ==== Sys2Proof/Laws/Casts.lean ====
section
/-!
SUPPORT. Powers of two at integer exponents, and how a fixed-point value and its raw integer compare.
-/

namespace Sys2Proof.Machine

/-- The model's power of two is the library's. -/
theorem pow2_eq_zpow (k : Int) : pow2 k = (2 : Rat) ^ k := by
  unfold pow2
  split
  · rename_i h
    obtain ⟨n, rfl⟩ := Int.eq_ofNat_of_zero_le h
    simp
  · rename_i h
    obtain ⟨n, hn⟩ := Int.eq_ofNat_of_zero_le (show 0 ≤ -k by omega)
    obtain rfl : k = -(n : Int) := by omega
    simp

theorem pow2_pos (k : Int) : 0 < pow2 k := by
  rw [pow2_eq_zpow]
  positivity

theorem pow2_add (a b : Int) : pow2 (a + b) = pow2 a * pow2 b := by
  simp only [pow2_eq_zpow]
  exact zpow_add₀ (by norm_num) a b

/-- Scaling to raw units and back is the identity. -/
theorem pow2_mul_neg (k : Int) : pow2 (-k) * pow2 k = 1 := by
  rw [← pow2_add, neg_add_cancel]
  rfl

/-- A fixed-point value in raw units is its raw integer. -/
theorem fixedValue_mul (W : Nat) (I raw : Int) : fixedValue W I raw * pow2 (fracBits W I) = raw := by
  rw [fixedValue, mul_assoc, pow2_mul_neg, mul_one]

/-- A value is at least a fixed-point value exactly when it is so in raw units. -/
theorem fixedValue_le_iff (W : Nat) (I raw : Int) (v : Rat) :
    fixedValue W I raw ≤ v ↔ (raw : Rat) ≤ v * pow2 (fracBits W I) := by
  rw [← fixedValue_mul W I raw]
  exact (mul_le_mul_iff_left₀ (pow2_pos _)).symm

/-- A value is at most a fixed-point value exactly when it is so in raw units. -/
theorem le_fixedValue_iff (W : Nat) (I raw : Int) (v : Rat) :
    v ≤ fixedValue W I raw ↔ v * pow2 (fracBits W I) ≤ (raw : Rat) := by
  rw [← fixedValue_mul W I raw]
  exact (mul_le_mul_iff_left₀ (pow2_pos _)).symm

/-- A representation that has no typing fault has at least one bit. -/
theorem one_le_of_typing {W I : Int} {q : Rounding} {o : Overflow}
    (h : typingFault (.fixed W I q o) = none) : 1 ≤ W := by
  simp only [typingFault] at h
  split at h
  · cases h
  · omega

end Sys2Proof.Machine
end

