-- ==== Sys2Proof/Laws/Memory.lean ====
section
/-!
SUPPORT. The laws of reading and writing one element of the lane banks: a read after a write, the canonical form, and that a
canonical memory is determined by what its reads answer.
-/

namespace Sys2Proof.Machine

variable {T : Type}

@[simp] theorem readElement_nil (l o : Nat) : readElement (T := T) [] l o = none := rfl

theorem readElement_cons (e : Element T) (m : Memory T) (l o : Nat) :
    readElement (e :: m) l o = if e.lane = l ∧ e.offset = o then some e.value else readElement m l o := rfl

/-- A read after a write to the same address gives the value written. -/
@[simp] theorem read_write_same (m : Memory T) (l o : Nat) (v : T) :
    readElement (writeElement m l o v) l o = some v := by
  induction m with
  | nil => simp [writeElement, readElement]
  | cons e m ih =>
    unfold writeElement
    split
    · simp [readElement]
    · split
      · simp [readElement]
      · rename_i h _
        rw [readElement_cons, if_neg h, ih]

/-- A write leaves every other address alone. -/
theorem read_write_other (m : Memory T) {l o l' o' : Nat} (v : T) (h : ¬(l = l' ∧ o = o')) :
    readElement (writeElement m l o v) l' o' = readElement m l' o' := by
  induction m with
  | nil => simp [writeElement, readElement, h]
  | cons e m ih =>
    unfold writeElement
    split
    · rename_i he
      obtain ⟨rfl, rfl⟩ := he
      simp [readElement_cons, h]
    · split
      · rw [readElement_cons, if_neg h]
      · rw [readElement_cons, readElement_cons, ih]

/-- Every element of the memory after a write is the one written or one of those before. -/
theorem mem_writeElement {m : Memory T} {l o : Nat} {v : T} {e : Element T} (h : e ∈ writeElement m l o v) :
    e = ⟨l, o, v⟩ ∨ e ∈ m := by
  induction m with
  | nil => simpa [writeElement] using h
  | cons a m ih =>
    unfold writeElement at h
    split at h
    · rcases List.mem_cons.1 h with rfl | h
      · exact .inl rfl
      · exact .inr (List.mem_cons_of_mem _ h)
    · split at h
      · rcases List.mem_cons.1 h with rfl | h
        · exact .inl rfl
        · exact .inr h
      · rcases List.mem_cons.1 h with rfl | h
        · exact .inr (List.mem_cons_self ..)
        · rcases ih h with rfl | h
          · exact .inl rfl
          · exact .inr (List.mem_cons_of_mem _ h)

theorem before_trans {a b c : Element T} (h : a.before b) (h' : b.before c) : a.before c := by
  simp only [Element.before] at *
  omega

/-- A write keeps the canonical form. -/
theorem writeElement_wf {m : Memory T} (h : m.wf) (l o : Nat) (v : T) : (writeElement m l o v).wf := by
  induction m with
  | nil => simp [writeElement, Memory.wf]
  | cons e m ih =>
    obtain ⟨hlt, hm⟩ := List.pairwise_cons.1 h
    unfold writeElement
    split
    · rename_i he
      obtain ⟨rfl, rfl⟩ := he
      exact List.pairwise_cons.2 ⟨hlt, hm⟩
    · split
      · rename_i hb
        refine List.pairwise_cons.2 ⟨fun a ha => ?_, h⟩
        rcases List.mem_cons.1 ha with rfl | ha
        · exact hb
        · exact before_trans hb (hlt a ha)
      · rename_i hne hnb
        refine List.pairwise_cons.2 ⟨fun a ha => ?_, ih hm⟩
        rcases mem_writeElement ha with rfl | ha
        · simp only [Element.before] at *
          omega
        · exact hlt a ha

/-- A value read stands in the memory at its address. -/
theorem mem_of_readElement {m : Memory T} {l o : Nat} {v : T} (h : readElement m l o = some v) :
    (⟨l, o, v⟩ : Element T) ∈ m := by
  induction m with
  | nil => simp at h
  | cons e m ih =>
    rw [readElement_cons] at h
    split at h
    · rename_i he
      obtain ⟨rfl, rfl⟩ := he
      obtain rfl : e.value = v := by simpa using h
      exact List.mem_cons_self ..
    · exact List.mem_cons_of_mem _ (ih h)

/-- In a canonical memory an element is what a read of its address gives. -/
theorem readElement_of_mem {m : Memory T} (hm : m.wf) {e : Element T} (h : e ∈ m) :
    readElement m e.lane e.offset = some e.value := by
  induction m with
  | nil => simp at h
  | cons a m ih =>
    obtain ⟨hlt, hm⟩ := List.pairwise_cons.1 hm
    rw [readElement_cons]
    rcases List.mem_cons.1 h with rfl | h
    · simp
    · have := hlt e h
      rw [if_neg (by simp only [Element.before] at this; omega), ih hm h]

theorem before_irrefl (a : Element T) : ¬a.before a := by simp [Element.before]

/-- A canonical memory lists no element twice. -/
theorem nodup_of_wf {m : Memory T} (h : m.wf) : m.Nodup := by
  refine List.nodup_iff_pairwise_ne.2 (List.Pairwise.imp ?_ h)
  rintro a b hab rfl
  exact before_irrefl a hab

/-- Two canonical memories that answer every read alike are equal. -/
theorem memory_ext {m m' : Memory T} (h : m.wf) (h' : m'.wf)
    (heq : ∀ l o, readElement m l o = readElement m' l o) : m = m' := by
  have sub : ∀ {a b : Memory T}, a.wf → (∀ l o, readElement a l o = readElement b l o) → ∀ e ∈ a, e ∈ b :=
    fun ha hab e he => mem_of_readElement ((hab _ _).symm.trans (readElement_of_mem ha he))
  refine List.Perm.eq_of_pairwise (le := Element.before) (fun a b _ _ hab hba => ?_) h h' ?_
  · exact absurd (before_trans hab hba) (before_irrefl a)
  · refine (List.perm_ext_iff_of_nodup ?_ ?_).2 fun e => ⟨sub h heq e, sub h' (fun l o => (heq l o).symm) e⟩
    · exact nodup_of_wf h
    · exact nodup_of_wf h'

end Sys2Proof.Machine
end

