-- ==== Sys2Proof/Laws/State.lean ====
section
/-!
SUPPORT. One lemma per field per update of the state, so that no later proof unfolds an update.
-/

namespace Sys2Proof.Machine

variable {T : Type}

section TakeFault
variable (f : FaultRecord) (s : State T)
@[simp] theorem takeFault_config : (takeFault f s).config = s.config := rfl
@[simp] theorem takeFault_banks : (takeFault f s).banks = s.banks := rfl
@[simp] theorem takeFault_phase : (takeFault f s).phase = s.phase := rfl
@[simp] theorem takeFault_fault : (takeFault f s).fault = some f := rfl
@[simp] theorem takeFault_out : (takeFault f s).out = s.out := rfl
@[simp] theorem takeFault_inputs : (takeFault f s).inputs = s.inputs := rfl
end TakeFault

section EmitVector
variable (v : List T) (s : State T)
@[simp] theorem emitVector_config : (emitVector v s).config = s.config := rfl
@[simp] theorem emitVector_banks : (emitVector v s).banks = s.banks := rfl
@[simp] theorem emitVector_phase : (emitVector v s).phase = s.phase := rfl
@[simp] theorem emitVector_fault : (emitVector v s).fault = s.fault := rfl
@[simp] theorem emitVector_out : (emitVector v s).out = s.out ++ [v] := rfl
@[simp] theorem emitVector_inputs : (emitVector v s).inputs = s.inputs := rfl
end EmitVector

section StoreElement
variable (l o : Nat) (v : T) (s : State T)
@[simp] theorem storeElement_config : (storeElement l o v s).config = s.config := rfl
@[simp] theorem storeElement_banks : (storeElement l o v s).banks = writeElement s.banks l o v := rfl
@[simp] theorem storeElement_phase : (storeElement l o v s).phase = s.phase := rfl
@[simp] theorem storeElement_fault : (storeElement l o v s).fault = s.fault := rfl
@[simp] theorem storeElement_out : (storeElement l o v s).out = s.out := rfl
@[simp] theorem storeElement_inputs : (storeElement l o v s).inputs = s.inputs := rfl
end StoreElement

section SetPhase
variable (p : Phase) (s : State T)
@[simp] theorem setPhase_config : (setPhase p s).config = s.config := rfl
@[simp] theorem setPhase_banks : (setPhase p s).banks = s.banks := rfl
@[simp] theorem setPhase_phase : (setPhase p s).phase = p := rfl
@[simp] theorem setPhase_fault : (setPhase p s).fault = s.fault := rfl
@[simp] theorem setPhase_out : (setPhase p s).out = s.out := rfl
@[simp] theorem setPhase_inputs : (setPhase p s).inputs = s.inputs := rfl
end SetPhase

section SetInputs
variable (es : List (Event T)) (s : State T)
@[simp] theorem setInputs_config : (setInputs es s).config = s.config := rfl
@[simp] theorem setInputs_banks : (setInputs es s).banks = s.banks := rfl
@[simp] theorem setInputs_phase : (setInputs es s).phase = s.phase := rfl
@[simp] theorem setInputs_fault : (setInputs es s).fault = s.fault := rfl
@[simp] theorem setInputs_out : (setInputs es s).out = s.out := rfl
@[simp] theorem setInputs_inputs : (setInputs es s).inputs = es := rfl
end SetInputs

section Reset
variable (c : Config)
@[simp] theorem resetOf_config : (State.resetOf c T).config = c := rfl
@[simp] theorem resetOf_banks : (State.resetOf c T).banks = [] := rfl
@[simp] theorem resetOf_phase : (State.resetOf c T).phase = .fill := rfl
@[simp] theorem resetOf_fault : (State.resetOf c T).fault = none := rfl
@[simp] theorem resetOf_out : (State.resetOf c T).out = [] := rfl
@[simp] theorem resetOf_inputs : (State.resetOf c T).inputs = [] := rfl
end Reset

end Sys2Proof.Machine
end

