-- ==== Sys2Proof/Laws/Ops.lean ====
section
/-!
SUPPORT. What each shared operation can do, said once: the guard, the reads of one `PERMUTE`, the check, the meaning of
`PERMUTE`, each agent's operation, and the step.
-/

namespace Sys2Proof.Machine

variable {T : Type}

/-- A running instance: no fault recorded, configuration accepted. -/
theorem operate_running {act : State T → Host.Outcome (State T) Fault Refusal} {s : State T} (hf : s.fault = none)
    (hc : configOk s.config) : operate act s = act s := by
  simp only [configOk] at hc
  simp [operate, hf, hc]

/-- Once the marker is set no operation acts. -/
theorem operate_halted {act : State T → Host.Outcome (State T) Fault Refusal} {s : State T} {f : FaultRecord}
    (hf : s.fault = some f) : operate act s = .fault (.halted f) := by
  simp [operate, hf]

/-- An instance whose configuration is refused takes that fault and nothing else. -/
theorem operate_misconfigured {act : State T → Host.Outcome (State T) Fault Refusal} {s : State T} {f : FaultRecord}
    (hf : s.fault = none) (hc : configFault s.config = some f) : operate act s = .next (takeFault f s) := by
  simp [operate, hf, hc]

/-- All a guarded operation can do when it answers a next state. -/
theorem operate_next {act : State T → Host.Outcome (State T) Fault Refusal} {s t : State T} (h : operate act s = .next t) :
    s.fault = none ∧
      ((∃ f, configFault s.config = some f ∧ t = takeFault f s) ∨ (configOk s.config ∧ act s = .next t)) := by
  unfold operate at h
  split at h
  · cases h
  · rename_i hf
    refine ⟨hf, ?_⟩
    split at h
    · rename_i f hc
      injection h with h
      exact .inl ⟨f, hc, h.symm⟩
    · rename_i hc
      exact .inr ⟨hc, h⟩

/-- An accepted configuration has at least one lane, a positive length, and a bank depth. -/
theorem configOk_arith {c : Config} (h : configOk c) : 0 < c.radix ∧ 0 < c.length ∧ c.radix ∣ c.length := by
  simp only [configOk, configFault, networkConfigFault] at h
  split at h
  · cases h
  · split at h
    · cases h
    · rename_i h1 h2
      simp only [Bool.or_eq_true, decide_eq_true_eq, Bool.not_eq_true', not_or, beq_eq_false_iff_ne, ne_eq,
        Decidable.not_not] at h1 h2
      exact ⟨by omega, by omega, by exact_mod_cast Int.dvd_of_emod_eq_zero h2.2⟩

/-- The reads of the listed lanes succeed exactly with the values the banks hold there, in order. -/
theorem gather_ok_iff {s : State T} {j t : Nat} {lanes : List Nat} {vs : List T} :
    gather s j t lanes = .ok vs ↔
      vs.map some = lanes.map fun r => readElement s.banks (sourceLane s.config.radix j r) (sourceOffset t r) := by
  induction lanes generalizing vs with
  | nil => cases vs <;> simp [gather]
  | cons r lanes ih =>
    simp only [gather, laneRead, List.map_cons]
    cases hr : readElement s.banks (sourceLane s.config.radix j r) (sourceOffset t r) with
    | none => cases vs <;> simp
    | some v =>
      cases hg : gather s j t lanes with
      | error f =>
        cases vs with
        | nil => simp
        | cons w ws =>
          have := (ih (vs := ws)).2.mt (by rw [hg]; simp)
          simp [this]
      | ok us =>
        have h1 := ih.1 hg
        cases vs with
        | nil => simp
        | cons w ws =>
          simp only [Except.ok.injEq, List.cons.injEq, List.map_cons, Option.some.injEq, ← h1,
            List.map_inj_right (fun _ _ => Option.some.inj)]
          exact and_congr eq_comm eq_comm

/-- The reads of the listed lanes fail exactly at the first lane whose source is not populated. -/
theorem gather_error_iff {s : State T} {j t : Nat} {lanes : List Nat} {f : FaultRecord} :
    gather s j t lanes = .error f ↔
      ∃ before r after, lanes = before ++ r :: after ∧
        (∀ r' ∈ before, populated s.banks (sourceLane s.config.radix j r') (sourceOffset t r') = true) ∧
        populated s.banks (sourceLane s.config.radix j r) (sourceOffset t r) = false ∧
        f = .unpopulatedRead (sourceLane s.config.radix j r) (sourceOffset t r) := by
  induction lanes with
  | nil => simp [gather]
  | cons a lanes ih =>
    simp only [gather, laneRead]
    cases hr : readElement s.banks (sourceLane s.config.radix j a) (sourceOffset t a) with
    | none =>
      constructor
      · intro h
        injection h with h
        exact ⟨[], a, lanes, rfl, by simp, by simp [populated, hr], h.symm⟩
      · rintro ⟨before, r, after, hsplit, hpop, hnot, rfl⟩
        cases before with
        | nil =>
          obtain ⟨rfl, rfl⟩ : a = r ∧ lanes = after := by simpa using hsplit
          rfl
        | cons b before =>
          obtain ⟨rfl, -⟩ : a = b ∧ lanes = before ++ r :: after := by simpa using hsplit
          have := hpop a (List.mem_cons_self ..)
          simp [populated, hr] at this
    | some v =>
      have key : (∃ before r after, a :: lanes = before ++ r :: after ∧
          (∀ r' ∈ before, populated s.banks (sourceLane s.config.radix j r') (sourceOffset t r') = true) ∧
          populated s.banks (sourceLane s.config.radix j r) (sourceOffset t r) = false ∧
          f = .unpopulatedRead (sourceLane s.config.radix j r) (sourceOffset t r)) ↔
          gather s j t lanes = .error f := by
        rw [ih]
        constructor
        · rintro ⟨before, r, after, hsplit, hpop, hnot, rfl⟩
          cases before with
          | nil =>
            obtain ⟨rfl, rfl⟩ : a = r ∧ lanes = after := by simpa using hsplit
            simp [populated, hr] at hnot
          | cons b before =>
            obtain ⟨rfl, hs⟩ : a = b ∧ lanes = before ++ r :: after := by simpa using hsplit
            exact ⟨before, r, after, hs, fun r' h' => hpop r' (List.mem_cons_of_mem _ h'), hnot, rfl⟩
        · rintro ⟨before, r, after, rfl, hpop, hnot, rfl⟩
          refine ⟨a :: before, r, after, rfl, fun r' h' => ?_, hnot, rfl⟩
          rcases List.mem_cons.1 h' with rfl | h'
          · simp [populated, hr]
          · exact hpop r' h'
      rw [key]
      cases gather s j t lanes <;> simp

/-- All the check can answer. -/
theorem checkCommand_eq (st : State T) (s t : Int) :
    checkCommand st s t =
      if st.phase ≠ .drain then some (.ownershipViolation .permute)
      else if s < 0 ∨ s > (st.config.radix : Int) - 1 then some (.stageIndexRange s)
      else if t < 0 ∨ t > (depthOf st.config : Int) - 1 then some (.timeOffsetRange t)
      else if t + ((st.config.radix : Int) - 1) > (depthOf st.config : Int) - 1 then
        some (.sourceOffsetRange t ((depthOf st.config : Int) - t))
      else none := rfl

/-- The check passes exactly on the valid commands in phase `DRAIN`. -/
theorem checkCommand_none_iff (st : State T) (s t : Int) :
    checkCommand st s t = none ↔ st.phase = .drain ∧ validCommand st.config s t := by
  rw [checkCommand_eq]
  by_cases hp : st.phase = .drain
  · rw [if_neg (by simp [hp])]
    by_cases h1 : s < 0 ∨ s > (st.config.radix : Int) - 1
    · rw [if_pos h1]
      simp only [validCommand, reduceCtorEq, false_iff]
      omega
    · rw [if_neg h1]
      by_cases h2 : t < 0 ∨ t > (depthOf st.config : Int) - 1
      · rw [if_pos h2]
        simp only [validCommand, reduceCtorEq, false_iff]
        omega
      · rw [if_neg h2]
        by_cases h3 : t + ((st.config.radix : Int) - 1) > (depthOf st.config : Int) - 1
        · rw [if_pos h3]
          simp only [validCommand, reduceCtorEq, false_iff]
          omega
        · rw [if_neg h3]
          exact ⟨fun _ => ⟨hp, by simp only [validCommand]; omega⟩, fun _ => rfl⟩
  · simp [hp]

/-- All `PERMUTE` can do on an instance that may operate. -/
theorem permuteAct_cases (s t : Int) (st : State T) :
    (∃ f, checkCommand st s t = some f ∧ permuteAct s t st = .next (takeFault f st)) ∨
    (checkCommand st s t = none ∧ ∃ f, ruleOutput st s.toNat t.toNat = .error f ∧
      permuteAct s t st = .next (takeFault f st)) ∨
    (checkCommand st s t = none ∧ ∃ v, ruleOutput st s.toNat t.toNat = .ok v ∧
      permuteAct s t st = .next (emitVector v st)) := by
  unfold permuteAct
  cases checkCommand st s t with
  | some f => exact .inl ⟨f, rfl, rfl⟩
  | none =>
    cases ruleOutput st s.toNat t.toNat with
    | error f => exact .inr (.inl ⟨rfl, f, rfl, rfl⟩)
    | ok v => exact .inr (.inr ⟨rfl, v, rfl, rfl⟩)

/-- All a `LaneWrite` can do on an instance that may operate. -/
theorem laneWriteAct_cases (l o : Int) (v : T) (s : State T) :
    (addressInRange s.config l o ∧ s.phase = .drain ∧
      laneWriteAct l o v s = .next (takeFault (.ownershipViolation .laneWrite) s)) ∨
    (addressInRange s.config l o ∧ s.phase = .fill ∧
      laneWriteAct l o v s = .next (storeElement l.toNat o.toNat v s)) ∨
    (¬addressInRange s.config l o ∧ laneWriteAct l o v s = .fault (.producerStuck l o)) := by
  unfold laneWriteAct
  by_cases ha : addressInRange s.config l o
  · rw [if_pos ha]
    cases hp : s.phase with
    | drain => exact .inl ⟨ha, rfl, rfl⟩
    | fill => exact .inr (.inl ⟨ha, rfl, rfl⟩)
  · rw [if_neg ha]
    exact .inr (.inr ⟨ha, rfl⟩)

/-- All a `DRAIN` can do on an instance that may operate. -/
theorem drainAct_cases (s : State T) :
    (drainable s.config ∧ driveOrderLegal s.config = true ∧
      drainAct s = .next (setInputs (drainEvents s.config ++ s.inputs) s)) ∨
    (drainable s.config ∧ driveOrderLegal s.config = false ∧
      drainAct s = .refused .driveOrderNotADriveSet) ∨
    (¬drainable s.config ∧ drainAct s = .refused .drainShape) := by
  unfold drainAct
  by_cases hd : drainable s.config
  · rw [if_pos hd]
    cases hl : driveOrderLegal s.config with
    | true => exact .inl ⟨hd, rfl, by simp⟩
    | false => exact .inr (.inl ⟨hd, rfl, by simp⟩)
  · rw [if_neg hd]
    exact .inr (.inr ⟨hd, rfl⟩)

/-- All a TableTraits request can do on an instance that may operate. -/
theorem tableTraitsAct_cases (request : TraitsRequest) (s : State T) :
    (∃ f, answerRequest (traitsInputOf s.config) request = .error f ∧
      tableTraitsAct request s = .next (takeFault f s)) ∨
    (∃ a, answerRequest (traitsInputOf s.config) request = .ok a ∧ tableTraitsAct request s = .next s) := by
  unfold tableTraitsAct
  cases answerRequest (traitsInputOf s.config) request with
  | error f => exact .inl ⟨f, rfl, rfl⟩
  | ok a => exact .inr ⟨a, rfl, rfl⟩

/-- `exec` is the machine's meaning at the sample type `Sample`. -/
theorem exec_eq_execAt : (exec : Executor Sample) = execAt := by
  funext i s
  cases i
  rfl

/-- `step` is the machine's step at the sample type `Sample`. -/
theorem step_eq_stepAt (s : State) : step s = stepAt s := by rw [step, exec_eq_execAt, stepAt]

/-- The step performs the head of the run's list on the rest of it. -/
theorem stepAt_cons {s : State T} {e : Event T} {rest : List (Event T)} (h : s.inputs = e :: rest) :
    stepAt s = performEvent execAt e (setInputs rest s) := by
  simp [stepAt, runNextEvent, h]

/-- With the list exhausted the step is idle. -/
theorem stepAt_nil {s : State T} (h : s.inputs = []) : stepAt s = hostIdle s := by
  simp [stepAt, runNextEvent, h]

theorem step_cons {s : State} {e : Event} {rest : List Event} (h : s.inputs = e :: rest) :
    step s = performEvent exec e (setInputs rest s) := by
  rw [step_eq_stepAt, stepAt_cons h, exec_eq_execAt]

theorem step_nil {s : State} (h : s.inputs = []) : step s = hostIdle s := by
  rw [step_eq_stepAt, stepAt_nil h]

/-- What a supplied word does on an instance that may operate. -/
def wordAct (nbits : Nat) (w : BitVec nbits) (s : State T) : Host.Outcome (State T) Fault Refusal :=
  match decodeSupplied s.config.indexWidth nbits w with
  | .ok (.permute i t) => permuteAct i t s
  | .error (.notOneWord k) => .refused (.notACommandWord k)

/-- A supplied word is a command exactly when it has the bits of one, and then the command it decodes to. -/
theorem decodeSupplied_cases (n nbits : Nat) (w : BitVec nbits) :
    (nbits = 2 * n ∧ decodeSupplied n nbits w = .ok (decodeAt n (w.setWidth (2 * n)))) ∨
    (nbits ≠ 2 * n ∧ decodeSupplied n nbits w = .error (.notOneWord nbits)) := by
  unfold decodeSupplied
  by_cases h : nbits = 2 * n
  · exact .inl ⟨h, if_pos h⟩
  · exact .inr ⟨h, if_neg h⟩

/-- What an item of the run does on an instance that may operate. -/
def eventAct : Event T → State T → Host.Outcome (State T) Fault Refusal
  | .word nbits w, s => wordAct nbits w s
  | .command (.permute i t), s => permuteAct i t s
  | .laneWrite l o v, s => laneWriteAct l o v s
  | .handOff, s => .next (setPhase .drain s)
  | .release, s => .next (setPhase .fill s)
  | .drain, s => drainAct s
  | .tableTraits request, s => tableTraitsAct request s

/-- Every item of a run passes the one guard. -/
theorem performEvent_eq (e : Event T) (s : State T) : performEvent execAt e s = operate (eventAct e) s := by
  cases e with
  | word nbits w =>
    obtain ⟨-, h⟩ | ⟨-, h⟩ := decodeSupplied_cases s.config.indexWidth nbits w
    · cases hd : decodeAt s.config.indexWidth (w.setWidth (2 * s.config.indexWidth))
      simp [performEvent, performWord, execAt, execPermute, eventAct, wordAct, h, hd, operate]
    · simp [performEvent, performWord, eventAct, wordAct, h, operate]
  | command i => cases i; rfl
  | _ => rfl

theorem performEvent_exec_eq (e : Event) (s : State) : performEvent exec e s = operate (eventAct e) s := by
  rw [exec_eq_execAt, performEvent_eq]

end Sys2Proof.Machine
end

