-- ==== Sys2Proof/Laws/Operands.lean ====
section
/-!
SUPPORT. The small arithmetic of lanes, offsets and depths, without modulo.
-/

namespace Sys2Proof.Machine

variable {T : Type}

/-- The source lane without its reduction (40_permute.md R83). -/
theorem sourceLane_cases {R s r : Nat} (hs : s < R) (hr : r < R) :
    sourceLane R s r = if s + r < R then s + r else s + r - R := by
  simp only [sourceLane]
  split
  · exact Nat.mod_eq_of_lt ‹_›
  · rw [Nat.mod_eq_sub_mod (by omega), Nat.mod_eq_of_lt (by omega)]

/-- The output lane that reads a bank, without its reduction (40_permute.md R87). -/
theorem outputLane_cases {R s l : Nat} (hs : s < R) (hl : l < R) :
    outputLane R s l = if s ≤ l then l - s else l + R - s := by
  simp only [outputLane]
  split
  · rw [Int.emod_eq_of_lt (by omega) (by omega)]
    omega
  · rw [← Int.add_emod_right, Int.emod_eq_of_lt (by omega) (by omega)]
    omega

/-- `R * DEPTH = L` in an accepted configuration (10_state.md R22). -/
theorem radix_mul_depth {c : Config} (h : configOk c) : c.radix * depthOf c = c.length :=
  Nat.mul_div_cancel' (configOk_arith h).2.2

/-- In a drainable configuration the depth is a whole number of blocks of `R` columns (41_drain.md R101). -/
theorem depth_of_drainable {c : Config} (hR : 0 < c.radix) (h : drainable c) :
    depthOf c = c.radix * (c.length / (c.radix * c.radix)) := by
  obtain ⟨b, hb⟩ := Nat.dvd_of_mod_eq_zero h
  rw [depthOf, hb, Nat.mul_assoc, Nat.mul_div_cancel_left _ hR, ← Nat.mul_assoc,
    Nat.mul_div_cancel_left _ (Nat.mul_pos hR hR)]

end Sys2Proof.Machine
end

