-- ==== Sys2Proof/Laws/PerInstr.lean ====
section
/-!
SUPPORT. Statements made per instruction. Family Encodable: the encoder answers a word for exactly the well-formed commands.
-/

namespace Sys2Proof.Laws.Encodable

/-- The command has a `CMD` word exactly when it is well-formed (30_encoding.md R63). -/
def Statement (i : Instr) : Prop := (encode i).isSome = i.wellFormed

theorem permute (stageIndex timeOffset : Int) : Statement (.permute stageIndex timeOffset) := by
  unfold Statement encode encodeAt Instr.wellFormed
  cases Instr.wellFormedAt 32 (.permute stageIndex timeOffset) <;> rfl

end Sys2Proof.Laws.Encodable
end

