-- ==== Sys2Proof/Laws/Step.lean ====
section
/-!
SUPPORT. All one step can do: the inversion of the step, and the inversion of one item of the run.
-/

namespace Sys2Proof.Machine

variable {T : Type}

/-- A word of this instance's length that is placed is the head of the run's list, and nothing else changed. -/
theorem withFetchWord_word (s : State) (w : BitVec (2 * s.config.indexWidth)) :
    s.withFetchWord (2 * s.config.indexWidth) w.toNat = setInputs (.word _ w :: s.inputs) s := by
  simp only [State.withFetchWord, placeWord, le_refl, if_true]
  rw [Nat.mod_eq_of_lt w.isLt, BitVec.ofNat_toNat, BitVec.setWidth_eq]

/-- A placed string of bits that is no word of this instance is the head of the run's list with all its bits. -/
theorem withFetchWord_long (s : State) {nbits : Nat} (w : BitVec nbits) (h : 2 * s.config.indexWidth < nbits) :
    s.withFetchWord nbits w.toNat = setInputs (.word nbits w :: s.inputs) s := by
  simp only [State.withFetchWord, placeWord]
  rw [if_neg (by omega), BitVec.ofNat_toNat, BitVec.setWidth_eq]

/-- The vector of a rule that succeeds has `R` samples. -/
theorem ruleOutput_length {s : State T} {j t : Nat} {v : List T} (h : ruleOutput s j t = .ok v) :
    v.length = s.config.radix := by
  simpa using congrArg List.length (gather_ok_iff.1 h)

/-- Lane `r` of the vector of a rule that succeeds is what its source element holds. -/
theorem ruleOutput_lane {s : State T} {j t : Nat} {v : List T} (h : ruleOutput s j t = .ok v) {r : Nat}
    (hr : r < s.config.radix) :
    v[r]? = readElement s.banks (sourceLane s.config.radix j r) (sourceOffset t r) := by
  have hmap := congrArg (fun l => l[r]?) (gather_ok_iff.1 h)
  simp only [List.getElem?_map, List.getElem?_range hr, Option.map_some] at hmap
  rw [List.getElem?_eq_getElem (by rw [ruleOutput_length h]; exact hr)] at hmap ⊢
  simpa using hmap

/-- All a step can do when it answers a next state: the marker was clear, and either the configuration's fault is taken, or the
list is exhausted and nothing changes, or the head of the list acts on the rest of it. -/
theorem stepAt_next {s t : State T} (h : stepAt s = .next t) :
    s.fault = none ∧
      ((∃ f, configFault s.config = some f ∧ t = takeFault f (setInputs s.inputs.tail s)) ∨
        (configOk s.config ∧ s.inputs = [] ∧ t = s) ∨
        (configOk s.config ∧ ∃ e rest, s.inputs = e :: rest ∧ eventAct e (setInputs rest s) = .next t)) := by
  cases hi : s.inputs with
  | nil =>
    rw [stepAt_nil hi, hostIdle] at h
    obtain ⟨hf, ⟨f, hc, rfl⟩ | ⟨hc, hs⟩⟩ := operate_next h
    · refine ⟨hf, .inl ⟨f, hc, ?_⟩⟩
      cases s
      simp_all [takeFault, setInputs]
    · injection hs with hs
      exact ⟨hf, .inr (.inl ⟨hc, rfl, hs.symm⟩)⟩
  | cons e rest =>
    rw [stepAt_cons hi, performEvent_eq] at h
    obtain ⟨hf, h | ⟨hc, h⟩⟩ := operate_next h
    · exact ⟨hf, .inl h⟩
    · exact ⟨hf, .inr (.inr ⟨hc, e, rest, rfl, h⟩)⟩

/-- `stepAt_next` for the host's machine. -/
theorem step_next {s t : State} (h : step s = .next t) :
    s.fault = none ∧
      ((∃ f, configFault s.config = some f ∧ t = takeFault f (setInputs s.inputs.tail s)) ∨
        (configOk s.config ∧ s.inputs = [] ∧ t = s) ∨
        (configOk s.config ∧ ∃ e rest, s.inputs = e :: rest ∧ eventAct e (setInputs rest s) = .next t)) :=
  stepAt_next (by rwa [← step_eq_stepAt])

/-- All a `PERMUTE` can do when it answers a next state, with nothing said of which fault. -/
theorem permuteAct_next {a b : Int} {s t : State T} (h : permuteAct a b s = .next t) :
    (∃ f, t = takeFault f s) ∨ ∃ v, t = emitVector v s ∧ v.length = s.config.radix := by
  obtain ⟨f, -, h'⟩ | ⟨-, f, -, h'⟩ | ⟨-, v, hv, h'⟩ := permuteAct_cases a b s
  · exact .inl ⟨f, by rw [h'] at h; injection h with h; exact h.symm⟩
  · exact .inl ⟨f, by rw [h'] at h; injection h with h; exact h.symm⟩
  · exact .inr ⟨v, by rw [h'] at h; injection h with h; exact h.symm, ruleOutput_length hv⟩

/-- All an item of the run can do when it answers a next state: take a fault, append a vector (a command only), write one
element (`LaneWrite` only), set the phase (`HandOff`, `Release`), supply a drive sequence (`DRAIN`), or nothing (TableTraits). -/
theorem eventAct_next {e : Event T} {s t : State T} (h : eventAct e s = .next t) :
    (∃ f, t = takeFault f s) ∨
    (∃ v i, t = emitVector v s ∧ v.length = s.config.radix ∧
      (e = .command i ∨
        ∃ nbits w, e = .word nbits w ∧ decodeSupplied s.config.indexWidth nbits w = .ok i)) ∨
    (∃ l o v, e = .laneWrite l o v ∧ s.phase = .fill ∧ addressInRange s.config l o ∧
      t = storeElement l.toNat o.toNat v s) ∨
    (e = .handOff ∧ t = setPhase .drain s) ∨ (e = .release ∧ t = setPhase .fill s) ∨
    (e = .drain ∧ t = setInputs (drainEvents s.config ++ s.inputs) s) ∨
    (∃ request, e = .tableTraits request ∧ t = s) := by
  cases e with
  | word nbits w =>
    simp only [eventAct, wordAct] at h
    split at h
    · rename_i hd
      obtain h | ⟨v, h, hl⟩ := permuteAct_next h
      · exact .inl h
      · exact .inr (.inl ⟨v, _, h, hl, .inr ⟨nbits, w, rfl, hd⟩⟩)
    · cases h
  | command i =>
    cases i
    obtain h | ⟨v, h, hl⟩ := permuteAct_next h
    · exact .inl h
    · exact .inr (.inl ⟨v, _, h, hl, .inl rfl⟩)
  | laneWrite l o v =>
    simp only [eventAct] at h
    obtain ⟨-, -, h'⟩ | ⟨ha, hp, h'⟩ | ⟨-, h'⟩ := laneWriteAct_cases l o v s <;> rw [h'] at h
    · injection h with h
      exact .inl ⟨_, h.symm⟩
    · injection h with h
      exact .inr (.inr (.inl ⟨l, o, v, rfl, hp, ha, h.symm⟩))
    · cases h
  | handOff =>
    injection h with h
    exact .inr (.inr (.inr (.inl ⟨rfl, h.symm⟩)))
  | release =>
    injection h with h
    exact .inr (.inr (.inr (.inr (.inl ⟨rfl, h.symm⟩))))
  | drain =>
    simp only [eventAct] at h
    obtain ⟨-, -, h'⟩ | ⟨-, -, h'⟩ | ⟨-, h'⟩ := drainAct_cases s <;> rw [h'] at h
    · injection h with h
      exact .inr (.inr (.inr (.inr (.inr (.inl ⟨rfl, h.symm⟩)))))
    · cases h
    · cases h
  | tableTraits request =>
    simp only [eventAct] at h
    obtain ⟨f, -, h'⟩ | ⟨a, -, h'⟩ := tableTraitsAct_cases request s <;> rw [h'] at h
    · injection h with h
      exact .inl ⟨_, h.symm⟩
    · injection h with h
      exact .inr (.inr (.inr (.inr (.inr (.inr ⟨request, rfl, h.symm⟩)))))

end Sys2Proof.Machine
end

