-- ==== Sys2Proof/Laws/Text.lean ====
section
/-!
SUPPORT. The expressions of `FILLALL` are every function of the lane and the offset over the banks (30_encoding.md R68).
-/

namespace Sys2Proof.Machine

/-- An expression that has the given values at the listed addresses. -/
theorem FillExpr.exists_value_on (f : Nat → Nat → Int) (addresses : List (Nat × Nat)) :
    ∃ e : FillExpr, ∀ p ∈ addresses, e.value p.1 p.2 = f p.1 p.2 := by
  induction addresses with
  | nil => exact ⟨.literal 0, by simp⟩
  | cons a rest ih =>
    obtain ⟨e, he⟩ := ih
    refine ⟨.override a.1 a.2 (f a.1 a.2) e, fun p hp => ?_⟩
    by_cases h : p.1 = a.1 ∧ p.2 = a.2
    · simp [FillExpr.value, h.1, h.2]
    · rw [FillExpr.value, if_neg h]
      rcases List.mem_cons.1 hp with rfl | hp
      · exact absurd ⟨rfl, rfl⟩ h
      · exact he p hp

/-- Every function of the lane and the offset is, over the banks of a configuration, the value of an expression. -/
theorem FillExpr.exists_value (c : Config) (f : Nat → Nat → Int) :
    ∃ e : FillExpr, ∀ l < c.radix, ∀ o < depthOf c, e.value l o = f l o := by
  obtain ⟨e, he⟩ := FillExpr.exists_value_on f (bankAddresses c)
  exact ⟨e, fun l hl o ho => he (l, o) (by simp [bankAddresses, hl, ho])⟩

end Sys2Proof.Machine
end

