-- ==== Sys2Proof/Tests/Slice0.lean ====
section
/-!
SUPPORT. The model's own tests: expected results are those of spec/95_test_vectors.md (section named at each theorem), and one
witness per statement that has hypotheses, clause by clause at the boundary values.
-/

namespace Sys2Proof.Tests

open Sys2Proof Sys2Proof.Machine

/-- The next state of an outcome, to compare with. -/
def nextOf : Host.Outcome State Fault Refusal → Option State
  | .next s => some s
  | _ => none

/-- The stop of an outcome, to compare with. -/
def faultOf : Host.Outcome State Fault Refusal → Option Fault
  | .fault f => some f
  | _ => none

/-- The refusal of an outcome, to compare with. -/
def refusalOf : Host.Outcome State Fault Refusal → Option Refusal
  | .refused r => some r
  | _ => none

/-- The banks of `c` filled with the given function of lane and offset. -/
def filled (c : Config) (f : Nat → Nat → Int) : Memory :=
  (bankAddresses c).foldl (fun m p => writeElement m p.1 p.2 ⟨f p.1 p.2⟩) []

/-- Every element populated with `10 * l + o`, phase `DRAIN`, nothing emitted. -/
def ready (c : Config) : State :=
  { State.resetOf c with banks := filled c fun l o => 10 * l + o, phase := .drain }

/-- Every element populated with the number of the sample the layout puts there, a `DRAIN` to come. -/
def canonical (c : Config) : State :=
  { State.resetOf c with
    banks := filled c fun l o => layoutSample c.radix l o, phase := .drain, inputs := [.drain] }

/-- What one command appends to an empty OUT, as integers. -/
def emitted (s : State) (i t : Int) : Option (List (List Int)) :=
  (nextOf (exec (.permute i t) s)).map fun u => u.out.map fun v => v.map Sample.token

/-- What one command leaves in the marker. -/
def recorded (s : State) (i t : Int) : Option (Option FaultRecord) :=
  (nextOf (exec (.permute i t) s)).map State.fault

/-- `R = 4, L = 8`, where no command is valid (95_test_vectors.md section 2.2). -/
def shortConfig : Config := .ofShape 4 8

/-- The drive order of `CFG-B` backwards: legal, not the default. -/
def backwards : Config := { Config.cfgB with driveOrder := .listed [(1, 2), (0, 2), (1, 0), (0, 0)] }

/-! ### Well-formedness, encoding, decoding -/

theorem test_ill_formed_stage_index_is_refused :
    (Instr.permute 2147483648 0).wellFormed = false ∧ (Instr.permute (-2147483649) 0).wellFormed = false ∧
      encode (.permute 2147483648 0) = none := by decide

theorem test_ill_formed_time_offset_is_refused :
    (Instr.permute 0 2147483648).wellFormed = false ∧ (Instr.permute 0 (-2147483649)).wellFormed = false ∧
      encode (.permute 0 (-2147483649)) = none := by decide

theorem test_well_formed_at_the_ends :
    (Instr.permute 2147483647 (-2147483648)).wellFormed = true ∧
      encode (.permute 2147483647 (-2147483648)) = some 0x7FFFFFFF80000000#64 := by decide

/-- 30_encoding.md R61, written out bit by bit: stageIndex 2 in bits 63:32, timeOffset -1 in bits 31:0. -/
theorem test_permute_word_bit_by_bit :
    decodeWord 0b0000000000000000000000000000001011111111111111111111111111111111#64 = .permute 2 (-1) := by decide

/-- 95_test_vectors.md section 2.2 and 2.3. -/
theorem test_decode_of_tabled_words :
    decodeWord 0xFFFFFFFDFFFFFFFD#64 = .permute (-3) (-3) ∧
      decodeWord 0x000000007FFFFFFF#64 = .permute 0 2147483647 ∧
      decodeWord 0x8000000000000001#64 = .permute (-2147483648) 1 := by decide

theorem test_table_word_is_permute :
    decodeTableWord 64 0x0000000300000004 = some (.permute 3 4) ∧ decodeTableWord 64 0 = some (.permute 0 0) ∧
      decodeTableWord 72 0 = none := by decide

/-- 30_encoding.md R64, `CFG-A`: rule 3 under its mask, and no other. -/
theorem test_rule_pattern :
    matchesRule 3 0x0000000300000007#64 = true ∧ matchesRule 2 0x0000000300000007#64 = false ∧
      matchesRule (2 ^ 32 + 3) 0x0000000300000007#64 = false := by decide

/-! ### PERMUTE -/

/-- 95_test_vectors.md section 2.1: `CFG-A` PERMUTE 2, 0; `CFG-C` PERMUTE 3, 4 and 3, 2; `CFG-D` PERMUTE 5, 0; `CFG-E`. -/
theorem test_permute_vectors :
    emitted (ready .cfgA) 2 0 = some [[20, 31, 2, 13]] ∧
      emitted (ready .cfgC) 3 4 = some [[34, 5, 16, 27]] ∧
      emitted (ready .cfgC) 3 2 = some [[32, 3, 14, 25]] ∧
      emitted (ready .cfgD) 5 0 = some [[50, 61, 72, 3, 14, 25, 36, 47]] ∧
      emitted (ready .cfgE) 0 2 = some [[2]] := by decide

/-- 95_test_vectors.md section 2.2. -/
theorem test_permute_faults :
    recorded (ready .cfgA) 2 1 = some (some (.sourceOffsetRange 1 3)) ∧
      recorded (ready .cfgA) 0 4 = some (some (.timeOffsetRange 4)) ∧
      recorded (ready .cfgA) 4 0 = some (some (.stageIndexRange 4)) ∧
      recorded (ready .cfgA) (-3) (-3) = some (some (.stageIndexRange (-3))) ∧
      recorded (ready shortConfig) 0 0 = some (some (.sourceOffsetRange 0 2)) ∧
      recorded { ready .cfgA with phase := .fill } 9 9 = some (some (.ownershipViolation .permute)) := by decide

/-- 95_test_vectors.md section 2.4: the mask form and the inverse map for `R = 4`. -/
theorem test_lane_arithmetic :
    sourceLaneMask 4 3 3 = 2 ∧ sourceLaneMask 4 2 1 = 3 ∧ sourceLaneMask 4 3 1 = 0 ∧
      (List.range 4).map (outputLane 4 3) = [1, 2, 3, 0] := by decide

/-- 95_test_vectors.md section 2.4: the chain's traces for `R = 4`, rule and number of tests. -/
theorem test_chain_traces :
    (List.range 4).map (fun s => (chainRule 3 s, chainTests 3 s)) = [(0, 3), (1, 3), (2, 2), (3, 1)] := by decide

/-! ### Host steps and DRAIN -/

/-- 95_test_vectors.md section 2.2, last row; 20_memory.md R45 for the stuck producer. -/
theorem test_lane_write_stops :
    (nextOf (hostLaneWrite 1 1 ⟨99⟩ (ready .cfgA))).map State.fault = some (some (.ownershipViolation .laneWrite)) ∧
      faultOf (hostLaneWrite 4 0 ⟨99⟩ (ready .cfgA)) = some (.producerStuck 4 0) := by decide

/-- 95_test_vectors.md section 2.5: the drive sequences of `CFG-B` and `CFG-E`, and the three refused shapes. -/
theorem test_drive_sequences :
    driveSequence .cfgB = [(0, 0), (1, 0), (0, 2), (1, 2)] ∧ driveSequence .cfgE = [(0, 0), (0, 1), (0, 2)] ∧
      refusalOf (hostDrain (ready shortConfig)) = some .drainShape ∧
      refusalOf (hostDrain (ready (.ofShape 2 6))) = some .drainShape ∧
      refusalOf (hostDrain (ready (.ofShape 8 32))) = some .drainShape := by decide

/-- A listed order that is not the drive set is refused by name. -/
theorem test_illegal_drive_order :
    refusalOf (hostDrain (ready { Config.cfgB with driveOrder := .listed [(0, 0), (0, 0), (0, 2), (1, 2)] })) =
      some .driveOrderNotADriveSet := by decide

/-- 95_test_vectors.md section 2.5: the layout of `CFG-C`, and its inverse at (3, 5). -/
theorem test_layout :
    [0, 5, 15, 16, 23, 31].map (fun n => (layoutLane 4 n, layoutOffset 4 n)) =
      [(0, 0), (2, 1), (2, 3), (0, 4), (0, 7), (2, 7)] ∧ layoutSample 4 3 5 = 25 := by decide

/-! ### TableTraits -/

/-- 95_test_vectors.md section 2.6: `64, 8, 3` and `8, 2, 0`, and P6's types. -/
theorem test_descriptor :
    tableTraits ⟨64, 8, 3, 16, .f32⟩ =
      .ok ⟨⟨16, 16, 8, 16, some 2, some 16, 16⟩, .binary32, .binary32, .binary32⟩ ∧
    tableTraits ⟨8, 2, 0, 16, .fixed 18 2 .truncate .none⟩ =
      .ok ⟨⟨2, 16, 4, 16, none, none, 16⟩, .fixed 18 2 .truncate .none, .fixed 18 2 .truncate .none,
        .fixed 18 2 .roundNearest .saturate⟩ := by decide

/-- 95_test_vectors.md section 2.6, the faults; 43_table_types.md R131 for the word length. -/
theorem test_traits_faults :
    tableTraits ⟨64, -2, 0, 16, .f32⟩ = .error (.cfgRadixNotPow2 (-2)) ∧
    tableTraits ⟨-4, 4, 0, 16, .f32⟩ = .error (.cfgLength (-4) 4) ∧
    tableTraits ⟨64, 8, -1, 16, .f32⟩ = .error (.cfgNoSizingRule (.forkingFactor (-1))) ∧
    tableTraits ⟨64, 8, 0, 16, .fixed 0 0 .truncate .none⟩ = .error (.cfgNoSizingRule (.wordLength 0)) ∧
    tableTraits ⟨64, 8, 0, 16, .fixed (-3) 0 .truncate .none⟩ = .error (.cfgNoSizingRule (.wordLength (-3))) ∧
    answerRequest ⟨64, 8, 0, 16, .f32⟩ .expTableLengthLastStage =
      .error (.cfgNoSizingRule (.forkingFactor 0)) := by decide

/-- 95_test_vectors.md section 2.7, `FIXED(8, 4)`: 1.71875, -1.71875, 8, -8.03125, 100.5 as raw integers. -/
theorem test_truncating_cast :
    [55 / 32, -55 / 32, 8, -257 / 32, 201 / 2].map (truncRaw 8 4) = [27, -28, -128, 127, 72] := by
  decide +kernel

/-- 95_test_vectors.md section 2.7, `FIXED(8, 4)`: the same operands and 7.96875. -/
theorem test_rounding_cast :
    [55 / 32, -55 / 32, 8, -257 / 32, 201 / 2, 255 / 32].map (rndSatRaw 8 4) =
      [28, -27, 127, -128, 127, 127] := by
  decide +kernel

/-! ### The textual form -/

/-- 30_encoding.md R67, R68. -/
theorem test_statements_read :
    readStatement "PERMUTE 2, -1 ".toList = some (.permute 2 (-1)) ∧
      readStatement "WRITE 0,1,13".toList = some (.write 0 1 13) ∧
      readStatement "HANDOFF".toList = some .handOff ∧ readStatement "PERMUTE 2".toList = none := by decide

/-- 95_test_vectors.md section 3, P3: the fill of `CFG-C`, and precedence against a written-out tree. -/
theorem test_fillall_reads :
    readStatement "FILLALL 100*l + o ".toList = some (.fillAll (.add (.mul (.literal 100) .lane) .offset)) ∧
      readStatement "FILLALL 7-(l - -2)*o".toList =
        some (.fillAll (.sub (.literal 7) (.mul (.sub .lane (.sub (.literal 0) (.literal 2))) .offset))) ∧
      (FillExpr.add (.mul (.literal 100) .lane) .offset).value 3 7 = 307 ∧ readStatement "FILLALL l +".toList = none := by
  decide

/-- The header fixes `R` and `L`; the rest is the instance's. -/
theorem test_program_reads :
    readProgram { Config.cfgA with forkingFactor := 2, rep := .f64 }
        ["# P5".toList, ".config R=2 L=8".toList, "".toList, "DRAIN # all".toList] =
      .ok ⟨{ Config.cfgB with forkingFactor := 2, rep := .f64 }, [.drain]⟩ := by decide

/-! ### Witnesses: every statement that has hypotheses, met by a concrete state and operands -/

theorem witness_CommandWordRoundTrip :
    (-(2 : Int) ^ 31 ≤ -2147483648 ∧ (-2147483648 : Int) ≤ 2 ^ 31 - 1 ∧ -(2 : Int) ^ 31 ≤ 2147483647 ∧
      (2147483647 : Int) ≤ 2 ^ 31 - 1) ∧
    ¬(-(2 : Int) ^ 31 ≤ 2147483648 ∧ (2147483648 : Int) ≤ 2 ^ 31 - 1 ∧ -(2 : Int) ^ 31 ≤ 0 ∧
      (0 : Int) ≤ 2 ^ 31 - 1) ∧
    State.reset.fault = none ∧ configOk State.reset.config ∧ State.reset.config.radix ≤ 2 ^ 31 ∧
      depthOf State.reset.config ≤ 2 ^ 31 := by decide

theorem witness_EveryIndexWidthRoundTrips :
    1 ≤ 1 ∧ (Instr.permute (-1) 0).wellFormedAt 1 = true ∧ (Instr.permute 1 0).wellFormedAt 1 = false := by decide

theorem witness_RulePatternSelectsItsStageIndex :
    (1 ≤ 32 ∧ 2147483647 < 2 ^ (32 - 1) ∧ 1 ≤ 1 ∧ 0 < 2 ^ (1 - 1)) ∧
      (2 ^ (32 - 1) ≤ 2147483648 ∧ 4294967295 < 2 ^ 32) ∧ 2 ^ 32 ≤ 4294967296 := by decide

/-- A word and a command of the default index width, a word of an instance with `IDXW = 8`, and a word too long for either. -/
theorem witness_StepRunsTheSuppliedCommand :
    (ready .cfgB).config.indexWidth = 32 ∧ { Config.cfgB with indexWidth := 8 }.indexWidth = 8 ∧
      65 ≠ 2 * (ready .cfgB).config.indexWidth ∧ (ready .cfgB).fault = none ∧ configOk (ready .cfgB).config ∧
    { ready .cfgB with inputs := [.word 64 0x0000000100000000#64] }.inputs = .word 64 0x0000000100000000#64 :: [] ∧
      { ready .cfgB with inputs := [.command (.permute 1 0)] }.inputs = .command (.permute 1 0) :: [] := by decide

/-- The corner commands `(0, 0)` and `(R - 1, DEPTH - R)` of `CFG-C`, and the one lane of `CFG-E`. -/
theorem witness_PermuteAppendsItsDiagonal :
    ((ready .cfgC).fault = none ∧ configOk (ready .cfgC).config ∧ HandedOff (ready .cfgC)) ∧
    (0 < (ready .cfgC).config.radix ∧ 0 + (ready .cfgC).config.radix ≤ depthOf (ready .cfgC).config ∧
      SourcesPopulated (ready .cfgC) 0 0) ∧
    (3 < (ready .cfgC).config.radix ∧ 4 + (ready .cfgC).config.radix ≤ depthOf (ready .cfgC).config ∧
      SourcesPopulated (ready .cfgC) 3 4) ∧
    (configOk (ready .cfgE).config ∧ 2 + (ready .cfgE).config.radix ≤ depthOf (ready .cfgE).config ∧
      SourcesPopulated (ready .cfgE) 0 2) := by decide

/-- Each clause at its boundary: `s = -1` and `s = R`, `t = -1` and `t = DEPTH`, `t = DEPTH - R + 1` and `t = DEPTH - 1`, and an
unpopulated element at output lane 0 and at output lane `R - 1`. -/
theorem witness_PermuteReportsTheFirstFailingTest :
    ((ready .cfgC).fault = none ∧ configOk (ready .cfgC).config ∧ (ready .cfgC).phase = .drain) ∧
    (State.resetOf .cfgC).phase = .fill ∧
    ((-1 : Int) < 0 ∧ ((ready .cfgC).config.radix : Int) - 1 < 4) ∧
    ((0 : Int) ≤ 3 ∧ (3 : Int) ≤ ((ready .cfgC).config.radix : Int) - 1 ∧ (-1 : Int) < 0 ∧
      (depthOf (ready .cfgC).config : Int) - 1 < 8) ∧
    ((5 : Int) ≤ (depthOf (ready .cfgC).config : Int) - 1 ∧
      (depthOf (ready .cfgC).config : Int) - 1 < 5 + (((ready .cfgC).config.radix : Int) - 1)) ∧
    ((7 : Int) ≤ (depthOf (ready .cfgC).config : Int) - 1 ∧
      (depthOf (ready .cfgC).config : Int) - 1 < 7 + (((ready .cfgC).config.radix : Int) - 1)) ∧
    (validCommand Config.cfgC 0 0 ∧ 0 < Config.cfgC.radix ∧
      populated (filled (.ofShape 4 4) fun _ _ => 0).tail ((0 + 0) % 4) (0 + 0) = false) ∧
    (validCommand Config.cfgC 1 4 ∧ 3 < Config.cfgC.radix ∧
      (∀ r' < 3, populated ((ready .cfgC).banks.filter fun e => !(e.lane == 0 && e.offset == 7))
        ((1 + r') % 4) (4 + r') = true) ∧
      populated ((ready .cfgC).banks.filter fun e => !(e.lane == 0 && e.offset == 7))
        ((1 + 3) % 4) (4 + 3) = false) ∧
    (validCommand (ready .cfgC).config 3 4 ∧ SourcesPopulated (ready .cfgC) 3 4) := by decide

theorem witness_PermuteSucceedsExactlyWhenItsChecksPass :
    ((ready .cfgB).fault = none ∧ configOk (ready .cfgB).config) ∧
    (HandedOff (ready .cfgB) ∧ validCommand (ready .cfgB).config 1 2 ∧ SourcesPopulated (ready .cfgB) 1 2) ∧
    ¬validCommand (ready .cfgB).config 1 3 := by decide

theorem witness_ShortTransformHasNoValidCommand :
    (ready shortConfig).fault = none ∧ configOk (ready shortConfig).config ∧
      (ready shortConfig).config.length < (ready shortConfig).config.radix * (ready shortConfig).config.radix ∧
      HandedOff (ready shortConfig) ∧ 3 < (ready shortConfig).config.radix := by decide

/-- A success and a fault. -/
theorem witness_PermuteFrame :
    (∃ u, exec (.permute 1 2) (ready .cfgB) = .next u ∧ u.fault = none) ∧
      (∃ u, exec (.permute 1 3) (ready .cfgB) = .next u ∧ u.fault = some (.sourceOffsetRange 3 1)) :=
  ⟨⟨_, rfl, by decide⟩, ⟨_, rfl, by decide⟩⟩

/-- Two states that differ in a bank element the command does not read, in OUT and in the run's list. -/
theorem witness_PermuteSeesOnlyItsDiagonal :
    ∃ st' : State, (ready .cfgB).config = st'.config ∧ (ready .cfgB).phase = st'.phase ∧ (ready .cfgB).fault = none ∧
      st'.fault = none ∧ st'.banks ≠ (ready .cfgB).banks ∧ st'.out ≠ (ready .cfgB).out ∧
      (∀ r < (ready .cfgB).config.radix,
        readElement (ready .cfgB).banks (sourceLane 2 1 r) (sourceOffset 2 r) =
          readElement st'.banks (sourceLane 2 1 r) (sourceOffset 2 r)) ∧
      (∃ u, exec (.permute 1 2) (ready .cfgB) = .next u) ∧ ∃ u', exec (.permute 1 2) st' = .next u' :=
  ⟨{ ready .cfgB with banks := writeElement (ready .cfgB).banks 0 0 ⟨77⟩, out := [[]] }, by decide, by decide, by decide,
    by decide, by decide, by decide, by decide, ⟨_, rfl⟩, ⟨_, rfl⟩⟩

theorem witness_SourceLaneIsABijection : 0 < 1 ∧ 7 < 8 ∧ sourceLane 8 7 1 = 0 ∧ 0 < 8 := by decide

/-- `R = 1`, and `R = 8` where the sum is `R - 1`, `R` and `2R - 2`. -/
theorem witness_SourceLaneEqualsItsMaskForm :
    isPowerOfTwo 1 = true ∧ isPowerOfTwo 8 = true ∧ (3 ≤ 8 - 1 ∧ 4 ≤ 8 - 1 ∧ 3 + 4 ≤ 8 - 1) ∧
      (4 ≤ 8 - 1 ∧ 8 ≤ 4 + 4) ∧ (7 ≤ 8 - 1 ∧ 8 ≤ 7 + 7) := by decide

/-- The base case, the last stage, and `R = 1`. -/
theorem witness_DispatchChainEqualsClosedForm :
    (1 ≤ 1 ∧ 0 < 1) ∧ (1 ≤ 4 ∧ 0 < 4 ∧ 3 < 4) := by decide

theorem witness_ChainMakesBoundedlyManyTests : 1 ≤ 1 ∧ 0 < 1 ∧ 1 ≤ 4 ∧ 0 < 4 ∧ 3 < 4 := by decide

theorem witness_RuleIsACyclicShift : 0 < 1 ∧ 3 < 4 ∧ 2 < 4 ∧ 0 < 4 := by decide

/-- Both ends of the address space, and the addresses one past them. -/
theorem witness_LaneWriteStoresOneElement :
    ((ready .cfgB).fault = none ∧ configOk (ready .cfgB).config) ∧ (ready .cfgB).phase = .drain ∧
      (State.resetOf .cfgB).phase = .fill ∧ addressInRange (ready .cfgB).config 0 0 ∧
      addressInRange (ready .cfgB).config 1 3 ∧ ¬addressInRange (ready .cfgB).config 2 0 ∧
      ¬addressInRange (ready .cfgB).config 0 4 ∧ ¬addressInRange (ready .cfgB).config (-1) 0 := by decide

/-- One past each end, in both phases; and an address in range. -/
theorem witness_OutOfRangeLaneWriteHasNoStep :
    ((ready .cfgB).fault = none ∧ configOk (ready .cfgB).config ∧ (ready .cfgB).phase = .drain) ∧
      ((State.resetOf .cfgB).fault = none ∧ (State.resetOf .cfgB).phase = .fill) ∧
      ¬addressInRange Config.cfgB 2 0 ∧ ¬addressInRange Config.cfgB 0 (-1) ∧ addressInRange Config.cfgB 1 3 := by decide

theorem witness_HandOffAndReleaseChangeThePhaseAlone :
    (ready .cfgB).fault = none ∧ configOk (ready .cfgB).config := by decide

theorem witness_OnlyLaneWriteChangesTheBanks :
    ∃ t, step { State.resetOf .cfgB with inputs := [.laneWrite 1 3 ⟨5⟩] } = .next t ∧
      t.banks ≠ { State.resetOf .cfgB with inputs := [.laneWrite 1 3 ⟨5⟩] }.banks := ⟨_, rfl, by decide⟩

theorem witness_PhaseChangesOnlyAtHandOffAndRelease :
    (∃ t, step { State.resetOf .cfgB with inputs := [.handOff] } = .next t ∧
      t.phase ≠ (State.resetOf .cfgB).phase) ∧
    (∃ t, step { ready .cfgB with inputs := [.release] } = .next t ∧ t.phase ≠ (ready .cfgB).phase) :=
  ⟨⟨_, rfl, by decide⟩, ⟨_, rfl, by decide⟩⟩

/-- A word and an abstract command that append, and a history whose vectors are full, read at its first and last element. -/
theorem witness_OutputHistoryGrowsOnlyByPermute :
    (∃ t, step { ready .cfgB with inputs := [.word 64 0x0000000100000002#64] } = .next t ∧ t.out ≠ (ready .cfgB).out) ∧
    (∃ t, step { ready .cfgB with inputs := [.command (.permute 1 2)] } = .next t ∧ t.out ≠ (ready .cfgB).out) ∧
    (∃ t, exec (.permute 1 2) (ready .cfgB) = .next t ∧ t.fault = none) ∧
    (∀ v ∈ { ready .cfgB with out := [[⟨0⟩, ⟨1⟩], [⟨2⟩, ⟨3⟩]] }.out, v.length = 2) ∧ 1 < 2 :=
  ⟨⟨_, rfl, by decide⟩, ⟨_, rfl, by decide⟩, ⟨_, rfl, by decide⟩, by decide, by decide⟩

theorem witness_PopulatedMarksAreNeverCleared :
    (∃ t, step { ready .cfgB with inputs := [.release] } = .next t) ∧ populated (ready .cfgB).banks 1 3 = true :=
  ⟨⟨_, rfl⟩, by decide⟩

theorem witness_ElementKeepsItsLastWrittenValue :
    readElement (ready .cfgB).banks 1 3 = some ⟨13⟩ ∧
      (∀ w, Event.laneWrite 1 3 w ∉ { ready .cfgB with inputs := [.release, .laneWrite 1 2 ⟨9⟩] }.inputs) ∧
      ∃ t, runSteps 2 { ready .cfgB with inputs := [.release, .laneWrite 1 2 ⟨9⟩] } = .next t :=
  ⟨by decide, by intro w; simp, ⟨_, rfl⟩⟩

theorem witness_FaultIsFinal :
    { ready .cfgB with fault := some (.stageIndexRange 2) }.fault = some (.stageIndexRange 2) := by decide

theorem witness_FaultEntryHasNoOtherEffect :
    ∃ t, step { ready .cfgB with inputs := [.command (.permute 2 0), .release] } = .next t ∧
      t.fault = some (.stageIndexRange 2) := ⟨_, rfl, by decide⟩

/-- No power of two at 0, 3 and -2; a length of 0 and one that `R` does not divide; an accepted pair; an instance with each fault. -/
theorem witness_MisconfiguredNetworkFaults :
    ((¬∃ k : Nat, (-2 : Int) = 2 ^ k) ∧ (¬∃ k : Nat, (0 : Int) = 2 ^ k)) ∧
    ((∃ k : Nat, (4 : Int) = 2 ^ k) ∧ (0 : Int) < 1 ∧ ¬(4 : Int) ∣ 10) ∧
    ((∃ k : Nat, (1 : Int) = 2 ^ k) ∧ (1 : Int) ≤ 1 ∧ (1 : Int) ∣ 1) ∧
    (State.resetOf (.ofShape 3 9)).fault = none ∧
    configFault (.ofShape 3 9) = some (.cfgRadixNotPow2 3) ∧
    configFault (.ofShape 0 9) = some (.cfgRadixNotPow2 0) ∧
    configFault (.ofShape 4 10) = some (.cfgLength 10 4) ∧
    configFault (.ofShape 4 0) = some (.cfgLength 0 4) := by
  refine ⟨⟨?_, ?_⟩, ⟨⟨2, by decide⟩, by decide, by decide⟩, ⟨⟨0, by decide⟩, by decide, by decide⟩, by decide, by decide,
    by decide, by decide, by decide⟩ <;>
  · rintro ⟨k, hk⟩
    have : (0 : Int) < 2 ^ k := by positivity
    omega

theorem witness_FirstCommandAfterResetFaults :
    configOk Config.cfgC ∧ 3 < Config.cfgC.radix ∧ 4 + Config.cfgC.radix ≤ depthOf Config.cfgC ∧
      0 < Config.cfgC.radix ∧ 0 + Config.cfgC.radix ≤ depthOf Config.cfgC := by decide

/-- Before the hand-off with an element already written, and after one with element (1, 3) of `CFG-B` never written, read at output
lane 1 of `PERMUTE 0, 2`. -/
theorem witness_CommandsFaultBeforeHandOffOrOnUnwrittenElements :
    (configOk Config.cfgB ∧ Event.handOff ∉ [Event.laneWrite 0 2 (⟨4⟩ : Sample)] ∧
      ∃ st, runSteps 1 { State.resetOf .cfgB with inputs := [.laneWrite 0 2 ⟨4⟩] } = .next st ∧ st.fault = none) ∧
    (∃ st, runSteps 2 { State.resetOf .cfgB with inputs := [.laneWrite 0 2 ⟨4⟩, .handOff] } = .next st ∧
      st.fault = none ∧ st.phase = .drain) ∧
    (0 < Config.cfgB.radix ∧ 2 + Config.cfgB.radix ≤ depthOf Config.cfgB ∧ 1 < Config.cfgB.radix ∧
      ∀ v, Event.laneWrite (sourceLane Config.cfgB.radix 0 1) (sourceOffset 2 1) v ∉
        [Event.laneWrite 0 2 (⟨4⟩ : Sample), .handOff]) :=
  ⟨⟨by decide, by decide, _, rfl, by decide⟩, ⟨_, rfl, by decide, by decide⟩, by decide, by decide, by decide,
    by intro v; simp [sourceLane, sourceOffset, Config.cfgB, Config.ofShape]⟩

theorem witness_StepKeepsTheInvariant :
    Inv { ready .cfgB with inputs := [.command (.permute 1 2)] } ∧
      (∃ t, step { ready .cfgB with inputs := [.command (.permute 1 2)] } = .next t ∧ t.out ≠ []) ∧
      Inv { ready .cfgB with inputs := [.command (.permute 1 3)] } ∧
      ∃ t, step { ready .cfgB with inputs := [.command (.permute 1 3)] } = .next t ∧ t.fault ≠ none :=
  ⟨⟨by decide, by decide, by decide, by rintro f ⟨⟩⟩, ⟨_, rfl, by decide⟩,
    ⟨by decide, by decide, by decide, by rintro f ⟨⟩⟩, ⟨_, rfl, by decide⟩⟩

theorem witness_DrainIsRefusedWithoutItsShape :
    ((ready shortConfig).fault = none ∧ configOk (ready shortConfig).config ∧
      ¬((ready shortConfig).config.radix * (ready shortConfig).config.radix ∣ (ready shortConfig).config.length)) ∧
    (configOk Config.cfgB ∧ Config.cfgB.radix * Config.cfgB.radix ∣ Config.cfgB.length ∧ DefaultDrive Config.cfgB) ∧
    (backwards.driveOrder = .listed [(1, 2), (0, 2), (1, 0), (0, 0)] ∧ configOk backwards ∧
      driveOrderLegal backwards = true) ∧
    driveOrderLegal { Config.cfgB with driveOrder := .listed [(0, 0), (0, 0), (0, 2), (1, 2)] } = false := by decide

/-- The first and the last command of `CFG-C`, two blocks. -/
theorem witness_DrainSuppliesTheDriveSequence :
    (canonical .cfgC).fault = none ∧ Drainable (canonical .cfgC).config ∧ DefaultDrive (canonical .cfgC).config ∧
      (canonical .cfgC).inputs = .drain :: [] ∧ 0 < (canonical .cfgC).config.length / (canonical .cfgC).config.radix ∧
      7 < (canonical .cfgC).config.length / (canonical .cfgC).config.radix := by decide

theorem witness_DriveSequenceEnumeratesTheDriveSet :
    Drainable Config.cfgC ∧ (3, 4) ∈ driveSet Config.cfgC ∧ Drainable Config.cfgE := by decide

theorem witness_ExactCoverIsTheDriveSet :
    configOk Config.cfgB ∧
      (∀ p ∈ ([(1, 2), (0, 2), (1, 0), (0, 0)] : List (Nat × Nat)), validCommand Config.cfgB p.1 p.2) ∧
      (∀ l < Config.cfgB.radix, ∀ o < depthOf Config.cfgB,
        ([(1, 2), (0, 2), (1, 0), (0, 0)] : List (Nat × Nat)).countP
          (fun p => decide (readsElement Config.cfgB p l o)) = 1) := by decide

theorem witness_FullDrainCoversEveryElementOnce :
    (Drainable Config.cfgC ∧ 7 < Config.cfgC.length / Config.cfgC.radix ∧ 3 < Config.cfgC.radix ∧
      7 < depthOf Config.cfgC ∧ (driveCommand 4 7).2 = 4) ∧ Drainable Config.cfgE := by decide

theorem witness_EveryDriveOrderCoversOnce :
    (Drainable backwards ∧ driveOrderLegal backwards = true ∧ 1 < backwards.radix ∧ 3 < depthOf backwards) ∧
      (Drainable Config.cfgC ∧ driveOrderLegal Config.cfgC = true) := by decide

theorem witness_DrainCompletesWithoutFault :
    (canonical backwards).fault = none ∧ Drainable (canonical backwards).config ∧
      driveOrderLegal (canonical backwards).config = true ∧ HandedOff (canonical backwards) ∧
      FullyPopulated (canonical backwards) ∧ (canonical backwards).inputs = .drain :: [] := by decide

theorem witness_DrainEmitsCanonicalOrder :
    (canonical .cfgB).fault = none ∧ Drainable (canonical .cfgB).config ∧ DefaultDrive (canonical .cfgB).config ∧
      HandedOff (canonical .cfgB) ∧ FullyPopulated (canonical .cfgB) ∧
      CanonicalFill (canonical .cfgB) ((List.range 8).map fun n => ⟨n⟩) ∧ (canonical .cfgB).out = [] ∧
      (canonical .cfgB).inputs = [.drain] := by decide

theorem witness_CanonicalLayoutIsInvertible :
    (0 < 4 ∧ 4 * 4 ∣ 32 ∧ 31 < 32 ∧ 3 < 4 ∧ 7 < 32 / 4) ∧ (0 < 1 ∧ 1 * 1 ∣ 3) := by decide

/-- `R = 2` with forking factor 0 and 1, and a forking factor above `R`. -/
theorem witness_DescriptorHoldsTheTabledLengths :
    (∃ k : Nat, (2 : Int) = 2 ^ k) ∧ (1 : Int) ≤ 1 ∧ (0 : Int) ≤ 0 ∧ (0 : Int) < 1 ∧ (0 : Int) < 4 ∧
      typingFault (.fixed 1 1 .truncate .none) = none :=
  ⟨⟨1, by decide⟩, by decide, by decide, by decide, by decide, by decide⟩

theorem witness_SizingFaultsComeInOrder :
    (¬∃ k : Nat, (0 : Int) = 2 ^ k) ∧ ((∃ k : Nat, (1 : Int) = 2 ^ k) ∧ (0 : Int) < 1) ∧
      ((1 : Int) ≤ 1 ∧ (-1 : Int) < 0) ∧ ((0 : Int) ≤ 0 ∧ (0 : Int) < 1 ∧ (-1 : Int) < 1 ∧ (1 : Int) ≤ 1) := by
  refine ⟨?_, ⟨⟨0, by decide⟩, by decide⟩, by decide, by decide⟩
  rintro ⟨k, hk⟩
  have : (0 : Int) < 2 ^ k := by positivity
  omega

theorem witness_AbsentLastStageLengthFaults :
    (∃ k : Nat, (8 : Int) = 2 ^ k) ∧ (1 : Int) ≤ 64 ∧ typingFault .f64 = none := ⟨⟨3, by decide⟩, by decide, by decide⟩

/-- `L / 4` one below the floor, at it, and the boundary `L = 63, 64`. -/
theorem witness_TwiddleLengthHasItsFloor :
    ((1 : Int) ≤ 63 ∧ (1 : Int) ≤ 64) ∧ (63 : Int) / 4 ≤ (16 : Nat) ∧ ((16 : Nat) : Int) ≤ 64 / 4 ∧ (63 : Int) ≤ 64 ∧
      (63 : Int) < 64 := by decide

theorem witness_ExtendedLengthIsAClamp : 15 ≤ 16 ∧ extendedLength 16 15 = 16 ∧ extendedLength 16 16 = 16 := by decide

theorem witness_ConsultingTableTraitsChangesNothing :
    ((ready .cfgB).fault = none ∧ configOk (ready .cfgB).config) ∧
      (∃ a, answerRequest (traitsInputOf Config.cfgB) .descriptor = .ok a) ∧
      answerRequest (traitsInputOf Config.cfgB) .expTableLengthLastStage =
        .error (.cfgNoSizingRule (.forkingFactor 0)) :=
  ⟨by decide, ⟨_, rfl⟩, by decide⟩

theorem witness_DescriptorHoldsTheTypes :
    (∃ d, tableTraits ⟨64, 8, 0, 16, .f32⟩ = .ok d) ∧ (∃ d, tableTraits ⟨64, 8, 0, 16, .f64⟩ = .ok d) ∧
      ∃ d, tableTraits ⟨64, 8, 0, 16, .fixed 1 0 .roundNearest .saturate⟩ = .ok d :=
  ⟨⟨_, rfl⟩, ⟨_, rfl⟩, ⟨_, rfl⟩⟩

theorem witness_ReferenceCastsFollowTheirFormulas : 1 ≤ 1 ∧ 1 ≤ 8 := by decide

theorem witness_FixedCapabilitiesAreTheReferenceCasts :
    1 ≤ 1 ∧ (0 : Int) < 1 ∧ (-5 : Int) < 1 := by decide

theorem witness_CastsAreIdempotent : 1 ≤ 8 ∧ Representable 8 4 0 :=
  ⟨by decide, ⟨0, by decide, by decide, by decide +kernel⟩⟩

/-- In range for both casts at the maximum 7.9375 of `FIXED(8, 4)`, below an operand in range. -/
theorem witness_CastsStayNearTheirOperand :
    1 ≤ 8 ∧ (rawMin 8 ≤ ⌊(127 / 16 : Rat) * pow2 (fracBits 8 4)⌋ ∧ ⌊(127 / 16 : Rat) * pow2 (fracBits 8 4)⌋ ≤ rawMax 8) ∧
      (rawMin 8 ≤ ⌊(127 / 16 : Rat) * pow2 (fracBits 8 4) + 1 / 2⌋ ∧
        ⌊(127 / 16 : Rat) * pow2 (fracBits 8 4) + 1 / 2⌋ ≤ rawMax 8) ∧
      (-8 : Rat) ≤ 127 / 16 ∧ rawMin 8 ≤ ⌊(-8 : Rat) * pow2 (fracBits 8 4)⌋ := by
  decide +kernel

theorem witness_FillAllPopulatesEveryElement :
    ∃ s : State, s.fault = none ∧ configOk s.config ∧ s.phase = .fill ∧
      s.inputs = expandStatement s.config (.fillAll (.add (.mul (.literal 10) .lane) .offset)) ++ [.handOff] :=
  ⟨{ State.resetOf .cfgB with
      inputs := expandStatement .cfgB (.fillAll (.add (.mul (.literal 10) .lane) .offset)) ++ [.handOff] },
    by decide, by decide, by decide, by decide⟩

end Sys2Proof.Tests
end

section
/-!
PROOFS. Family `10_state.md`: the values reset leaves (R33) and how the output history grows (R31).
-/

namespace Sys2Proof.Machine

variable {T : Type}

/-! ### Reset -/

/-- With no element stored nothing is populated (10_state.md R24, R33). -/
@[simp] theorem populated_nil (l o : Nat) : populated (T := T) [] l o = false := rfl

/-- A `LaneRead` of an element without a value is `UNPOPULATED_READ` (20_memory.md R44). -/
theorem laneRead_of_readElement_none {s : State T} {l o : Nat} (h : readElement s.banks l o = none) :
    laneRead s l o = .error (.unpopulatedRead l o) := by
  simp [laneRead, h]

/-- Settles O32: reset stores no element, so every read finds none; the other values are `State.resetOf`'s own fields. -/
theorem resetLeavesTheTabledValues : Obligations.ResetLeavesTheTabledValues := by
  intro c
  have hread (l o : Nat) : readElement (State.resetOf c).banks l o = none := readElement_nil l o
  exact ⟨fun l o => ⟨hread l o, populated_nil l o, laneRead_of_readElement_none (hread l o)⟩,
    resetOf_phase c, resetOf_fault c, resetOf_out c, rfl⟩

/-! ### The output history -/

/-- A command passes the guard every operation passes, then acts. -/
theorem exec_permute_eq_operate (a b : Int) (s : State) : exec (.permute a b) s = operate (permuteAct a b) s := rfl

/-- An item of the run leaves `OUT` as it is, or is a command that appends one vector and leaves the marker as it is. -/
theorem eventAct_out {e : Event T} {s t : State T} (h : eventAct e s = .next t) :
    t.out = s.out ∨
      ∃ v i, t.out = s.out ++ [v] ∧ t.fault = s.fault ∧
        (e = .command i ∨ ∃ nbits w, e = .word nbits w ∧ decodeSupplied s.config.indexWidth nbits w = .ok i) := by
  obtain ⟨f, rfl⟩ | ⟨v, i, rfl, -, he⟩ | ⟨l, o, v, -, -, -, rfl⟩ | ⟨-, rfl⟩ | ⟨-, rfl⟩ | ⟨-, rfl⟩ | ⟨request, -, rfl⟩ :=
    eventAct_next h
  case inr.inl => exact .inr ⟨v, i, rfl, rfl, he⟩
  all_goals exact .inl rfl

/-- A step leaves `OUT` as it is, or its head item is a command that appends one vector and records no fault (R31). -/
theorem step_out {s t : State} (h : step s = .next t) :
    t.out = s.out ∨
      ∃ (v : List Sample) (i : Instr) (rest : List Event), t.out = s.out ++ [v] ∧ t.fault = none ∧
        (s.inputs = .command i :: rest ∨
          ∃ nbits w, s.inputs = .word nbits w :: rest ∧ decodeSupplied s.config.indexWidth nbits w = .ok i) := by
  obtain ⟨hf, ⟨f, -, rfl⟩ | ⟨-, -, rfl⟩ | ⟨-, e, rest, hi, hact⟩⟩ := step_next h
  · exact .inl rfl
  · exact .inl rfl
  · obtain hout | ⟨v, i, hout, hfault, rfl | ⟨nbits, w, rfl, hd⟩⟩ := eventAct_out hact
    · exact .inl hout
    · exact .inr ⟨v, i, rest, hout, hfault.trans hf, .inl hi⟩
    · exact .inr ⟨v, i, rest, hout, hfault.trans hf, .inr ⟨nbits, w, hi, hd⟩⟩

/-- A command that ends without a fault appends one vector of `R` samples (R31). -/
theorem exec_out_of_noFault {i : Instr} {s t : State} (h : exec i s = .next t) (ht : t.fault = none) :
    ∃ v : List Sample, v.length = s.config.radix ∧ t.out = s.out ++ [v] := by
  obtain ⟨a, b⟩ := i
  rw [exec_permute_eq_operate] at h
  obtain ⟨-, ⟨f, -, rfl⟩ | ⟨-, hact⟩⟩ := operate_next h
  · simp at ht
  · obtain ⟨f, rfl⟩ | ⟨v, rfl, hv⟩ := permuteAct_next hact
    · simp at ht
    · exact ⟨v, hv, rfl⟩

/-- In a list of blocks of `R` elements each, element `c * R + r` of the flat list is element `r` of block `c`. -/
theorem getElem?_flatten_of_forall_length {R : Nat} {vs : List (List T)} (hlen : ∀ v ∈ vs, v.length = R) (c : Nat)
    {r : Nat} (hr : r < R) : vs.flatten[c * R + r]? = vs[c]?.bind fun v => v[r]? := by
  induction vs generalizing c with
  | nil => simp
  | cons v vs ih =>
    obtain ⟨hv, hvs⟩ := List.forall_mem_cons.1 hlen
    rw [List.flatten_cons]
    cases c with
    | zero => simp [List.getElem?_append_left (hv.symm ▸ hr : r < v.length)]
    | succ c =>
      have hindex : (c + 1) * R + r = v.length + (c * R + r) := by rw [hv]; ring
      rw [hindex, List.getElem?_append_right (by omega), Nat.add_sub_cancel_left, ih hvs c, List.getElem?_cons_succ]

/-- Settles O24: the step by what its head item can do, the command by what `PERMUTE` can do, the flat stream by induction on
the vectors. -/
theorem outputHistoryGrowsOnlyByPermute : Obligations.OutputHistoryGrowsOnlyByPermute :=
  ⟨fun c => resetOf_out c, fun _ _ h => step_out h, fun _ _ _ h ht => exec_out_of_noFault h ht,
    fun _ _ c _ hlen hr => getElem?_flatten_of_forall_length hlen c hr⟩

end Sys2Proof.Machine
end

section
/-!
PROOFS. Family `20_memory.md`: what the producer's `LaneWrite` does to the banks (R45).
-/

namespace Sys2Proof.Machine

variable {T : Type}

/-! ### The banks after one write -/

/-- An element that was written is populated (20_memory.md R45). -/
@[simp] theorem populated_writeElement_same (m : Memory T) (l o : Nat) (v : T) :
    populated (writeElement m l o v) l o = true := by
  rw [populated, read_write_same, Option.isSome_some]

/-- A write at an integer address of the banks leaves every other address alone. -/
theorem read_write_other_toNat {c : Config} {l o : Int} (ha : addressInRange c l o) (m : Memory T) (v : T) {l' o' : Nat}
    (hne : ¬((l' : Int) = l ∧ (o' : Int) = o)) :
    readElement (writeElement m l.toNat o.toNat v) l' o' = readElement m l' o' := by
  obtain ⟨hl, -, ho, -⟩ := ha
  have hne' : ¬(l.toNat = l' ∧ o.toNat = o') := by omega
  exact read_write_other m v hne'

/-! ### `LaneWrite` on a running, well-configured instance -/

section LaneWrite
variable {l o : Int} {s : State T} (v : T) (hf : s.fault = none) (hc : configOk s.config)
include hf hc

/-- In phase `FILL` an in-range `LaneWrite` stores its element (20_memory.md R45). -/
theorem hostLaneWrite_of_fill (ha : addressInRange s.config l o) (hp : s.phase = .fill) :
    hostLaneWrite l o v s = .next (storeElement l.toNat o.toNat v s) := by
  rw [hostLaneWrite, operate_running hf hc]
  obtain ⟨-, hdrain, -⟩ | ⟨-, -, hact⟩ | ⟨hout, -⟩ := laneWriteAct_cases l o v s
  · cases hp.symm.trans hdrain
  · exact hact
  · exact absurd ha hout

/-- In phase `DRAIN` an in-range `LaneWrite` is an ownership violation (20_memory.md R45, 60_exceptions.md R157). -/
theorem hostLaneWrite_of_drain (ha : addressInRange s.config l o) (hp : s.phase = .drain) :
    hostLaneWrite l o v s = .next (takeFault (.ownershipViolation .laneWrite) s) := by
  rw [hostLaneWrite, operate_running hf hc]
  obtain ⟨-, -, hact⟩ | ⟨-, hfill, -⟩ | ⟨hout, -⟩ := laneWriteAct_cases l o v s
  · exact hact
  · cases hp.symm.trans hfill
  · exact absurd ha hout

/-- Outside the banks the producer has no `LaneWrite`, in either phase (20_memory.md R45). -/
theorem hostLaneWrite_of_not_addressInRange (ha : ¬addressInRange s.config l o) :
    hostLaneWrite l o v s = .fault (.producerStuck l o) := by
  rw [hostLaneWrite, operate_running hf hc]
  obtain ⟨hin, -⟩ | ⟨hin, -⟩ | ⟨-, hact⟩ := laneWriteAct_cases l o v s
  · exact absurd hin ha
  · exact absurd hin ha
  · exact hact

end LaneWrite

/-- Settles O19: the three outcomes of a `LaneWrite`, and for the first what a read finds after one write. -/
theorem laneWriteStoresOneElement : Obligations.LaneWriteStoresOneElement := by
  intro s l o v hf hc
  refine ⟨fun ha hp => ?_, fun ha hp => hostLaneWrite_of_drain v hf hc ha hp,
    fun ha _ => hostLaneWrite_of_not_addressInRange v hf hc ha⟩
  exact ⟨writeElement s.banks l.toNat o.toNat v, hostLaneWrite_of_fill v hf hc ha hp, read_write_same ..,
    populated_writeElement_same .., fun _ _ hne => read_write_other_toNat ha s.banks v hne⟩

end Sys2Proof.Machine
end

section
/-!
PROOFS. Family `30_encoding.md`: the two index fields of a command word (R61, R62), and the two round trips of the encoder and the
decoder (R63). The lemmas hold at every index width `n`; the statements read them at 32.
-/

namespace Sys2Proof

/-! ### A word and its two fields -/

section Fields
variable {n : Nat}

/-- The word whose upper field is `a` and whose lower field is `b` (30_encoding.md R61). -/
def packFields (a b : BitVec n) : BitVec (2 * n) := (a ++ b).setWidth (2 * n)

theorem toNat_stageField (w : BitVec (2 * n)) : (stageField n w).toNat = w.toNat / 2 ^ n := by
  have hw : w.toNat < 2 ^ n * 2 ^ n := by rw [← pow_add, ← two_mul]; exact w.isLt
  rw [stageField, BitVec.extractLsb'_toNat, Nat.shiftRight_eq_div_pow, Nat.mod_eq_of_lt (Nat.div_lt_of_lt_mul hw)]

theorem toNat_timeField (w : BitVec (2 * n)) : (timeField n w).toNat = w.toNat % 2 ^ n := by
  rw [timeField, BitVec.extractLsb'_toNat, Nat.shiftRight_zero]

theorem toNat_packFields (a b : BitVec n) : (packFields a b).toNat = a.toNat * 2 ^ n + b.toNat := by
  rw [packFields, BitVec.toNat_setWidth_of_le (by omega), BitVec.toNat_append,
    ← Nat.shiftLeft_add_eq_or_of_lt b.isLt, Nat.shiftLeft_eq]

@[simp] theorem stageField_packFields (a b : BitVec n) : stageField n (packFields a b) = a := by
  apply BitVec.eq_of_toNat_eq
  rw [toNat_stageField, toNat_packFields, mul_comm, Nat.mul_add_div (by positivity), Nat.div_eq_of_lt b.isLt, add_zero]

@[simp] theorem timeField_packFields (a b : BitVec n) : timeField n (packFields a b) = b := by
  apply BitVec.eq_of_toNat_eq
  rw [toNat_timeField, toNat_packFields, mul_comm, Nat.mul_add_mod, Nat.mod_eq_of_lt b.isLt]

/-- A word is nothing but its two fields. -/
@[simp] theorem packFields_stageField_timeField (w : BitVec (2 * n)) : packFields (stageField n w) (timeField n w) = w := by
  apply BitVec.eq_of_toNat_eq
  rw [toNat_packFields, toNat_stageField, toNat_timeField, Nat.div_add_mod']

end Fields

/-! ### Which integers a field holds -/

/-- A 32-bit field as two's complement: the upper half of its numbers stands for the negative integers (30_encoding.md R62). -/
theorem toInt_of_width_32 (b : BitVec 32) :
    b.toInt = if b.toNat < 2 ^ 31 then (b.toNat : Int) else (b.toNat : Int) - 2 ^ 32 := by
  rw [BitVec.toInt_eq_toNat_cond]
  split <;> split <;> omega

section FitsField
variable {n : Nat} {v : Int}

theorem fitsField_iff : fitsField n v = true ↔ -(2 : Int) ^ (n - 1) ≤ v ∧ v ≤ (2 : Int) ^ (n - 1) - 1 := by
  simp [fitsField]

/-- A field read as two's complement holds an integer that fits it. -/
theorem fitsField_toInt (b : BitVec n) : fitsField n b.toInt = true :=
  fitsField_iff.2 ⟨b.le_toInt, Int.le_sub_one_of_lt b.toInt_lt⟩

/-- An integer that fits the field is read back from it. -/
theorem toInt_ofInt_of_fitsField (hn : 1 ≤ n) (h : fitsField n v = true) : (BitVec.ofInt n v).toInt = v := by
  obtain ⟨hlo, hhi⟩ := fitsField_iff.1 h
  exact BitVec.toInt_ofInt_eq_self hn hlo (Int.lt_of_le_sub_one hhi)

end FitsField

/-- A command has a `CMD` word exactly when both its indices lie in `[-2^31, 2^31 - 1]` (30_encoding.md R63). -/
theorem wellFormedAt_32_permute_iff (s t : Int) :
    (Instr.permute s t).wellFormedAt 32 = true ↔
      -(2 : Int) ^ 31 ≤ s ∧ s ≤ 2 ^ 31 - 1 ∧ -(2 : Int) ^ 31 ≤ t ∧ t ≤ 2 ^ 31 - 1 := by
  rw [Instr.wellFormedAt, Bool.and_eq_true, fitsField_iff, fitsField_iff, and_assoc]

/-! ### The encoder and the two round trips -/

section RoundTrips
variable {n : Nat}

/-- The encoder packs the two indices modulo `2^n` (30_encoding.md R63). -/
theorem encodeAt_of_wellFormedAt {s t : Int} (h : (Instr.permute s t).wellFormedAt n = true) :
    encodeAt n (.permute s t) = some (packFields (BitVec.ofInt n s) (BitVec.ofInt n t)) := if_pos h

/-- A command that does not fit is refused (30_encoding.md R63). -/
theorem encodeAt_of_not_wellFormedAt {i : Instr} (h : ¬i.wellFormedAt n = true) : encodeAt n i = none := by
  cases i
  exact if_neg h

/-- The number a word of two integers modulo `2^n` stands for. -/
theorem toNat_packFields_ofInt (s t : Int) :
    ((packFields (BitVec.ofInt n s) (BitVec.ofInt n t)).toNat : Int) = s % 2 ^ n * 2 ^ n + t % 2 ^ n := by
  have hfield (v : Int) : ((BitVec.ofInt n v).toNat : Int) = v % 2 ^ n := by
    rw [BitVec.toNat_ofInt, Int.toNat_of_nonneg (Int.emod_nonneg _ (by positivity)), Nat.cast_pow, Nat.cast_ofNat]
  rw [toNat_packFields]
  push_cast
  rw [hfield, hfield]

/-- Decoding the packed indices of a command that fits gives the command back. -/
theorem decodeAt_packFields_ofInt {s t : Int} (hn : 1 ≤ n) (h : (Instr.permute s t).wellFormedAt n = true) :
    decodeAt n (packFields (BitVec.ofInt n s) (BitVec.ofInt n t)) = .permute s t := by
  obtain ⟨hs, ht⟩ := Bool.and_eq_true_iff.1 h
  rw [decodeAt, stageField_packFields, timeField_packFields, toInt_ofInt_of_fitsField hn hs,
    toInt_ofInt_of_fitsField hn ht]

/-- Every word decodes to a command that has a word. -/
theorem wellFormedAt_decodeAt (w : BitVec (2 * n)) : (decodeAt n w).wellFormedAt n = true :=
  Bool.and_eq_true_iff.2 ⟨fitsField_toInt _, fitsField_toInt _⟩

/-- Encoding the command a word decodes to gives the word back (30_encoding.md R63). -/
theorem encodeAt_decodeAt (w : BitVec (2 * n)) : encodeAt n (decodeAt n w) = some w := by
  rw [decodeAt, encodeAt_of_wellFormedAt (wellFormedAt_decodeAt w), BitVec.ofInt_toInt, BitVec.ofInt_toInt,
    packFields_stageField_timeField]

end RoundTrips

end Sys2Proof

namespace Sys2Proof.Machine

variable {T : Type}

/-! ### A command without a word still has its meaning -/

/-- An invalid command faults when it runs, whatever the phase (40_permute.md R81, R82). -/
theorem permuteAct_of_not_validCommand {st : State T} {s t : Int} (h : ¬validCommand st.config s t) :
    ∃ f, permuteAct s t st = .next (takeFault f st) := by
  obtain ⟨f, -, hact⟩ | ⟨hcheck, -⟩ | ⟨hcheck, -⟩ := permuteAct_cases s t st
  · exact ⟨f, hact⟩
  all_goals exact absurd ((checkCommand_none_iff st s t).1 hcheck).2 h

/-- With at most `2^31` lanes and offsets, every valid command has a word. -/
theorem wellFormedAt_32_of_validCommand {c : Config} {s t : Int} (hR : c.radix ≤ 2 ^ 31) (hD : depthOf c ≤ 2 ^ 31)
    (hpos : 0 < c.radix) (h : validCommand c s t) : (Instr.permute s t).wellFormedAt 32 = true := by
  obtain ⟨hs, hs', ht, ht'⟩ := h
  exact (wellFormedAt_32_permute_iff s t).2 (by omega)

/-- A command that has no word faults on every running network with at most `2^31` lanes and offsets (30_encoding.md R63). -/
theorem exec_permute_of_not_wellFormedAt_32 {st : State} {s t : Int} (hf : st.fault = none) (hc : configOk st.config)
    (hR : st.config.radix ≤ 2 ^ 31) (hD : depthOf st.config ≤ 2 ^ 31)
    (h : ¬(Instr.permute s t).wellFormedAt 32 = true) : ∃ f, exec (.permute s t) st = .next (takeFault f st) := by
  rw [exec_permute_eq_operate, operate_running hf hc]
  exact permuteAct_of_not_validCommand (mt (wellFormedAt_32_of_validCommand hR hD (configOk_arith hc).1) h)

/-! ### The encoder -/

/-- Settles O1: the two fields of a word determine it, each is read back from the integer it was packed from, and a command with an
index outside its field has that index outside the lanes or the offsets. -/
theorem commandWordRoundTrip : Obligations.CommandWordRoundTrip := by
  refine ⟨fun s t h => ?_, fun s t h => ?_, encodeAt_decodeAt (n := 32)⟩
  · have hwf := (wellFormedAt_32_permute_iff s t).2 h
    exact ⟨_, encodeAt_of_wellFormedAt hwf, toNat_packFields_ofInt s t, decodeAt_packFields_ofInt (by decide) hwf⟩
  · have hwf := mt (wellFormedAt_32_permute_iff s t).1 h
    exact ⟨encodeAt_of_not_wellFormedAt hwf,
      fun st hf hc hR hD => exec_permute_of_not_wellFormedAt_32 hf hc hR hD hwf⟩

/-! ### The decoder -/

/-- Settles O3: the decoder's two fields as a quotient and a remainder by `2^32`, each read as two's complement. -/
theorem decodeReadsTwoSignedFields : Obligations.DecodeReadsTwoSignedFields := by
  intro w
  have hs := toInt_of_width_32 (stageField 32 w)
  have ht := toInt_of_width_32 (timeField 32 w)
  rw [toNat_stageField] at hs
  rw [toNat_timeField] at ht
  exact ⟨_, _, rfl, hs, ht⟩

end Sys2Proof.Machine
end

section
/-!
PROOFS. Family `40_permute.md`: the arithmetic of the source lane (R83, R84, R87), the dispatch chain against the closed form (R90,
R93), and the outcome of `PERMUTE` by its five tests (R82, R85).
-/

namespace Sys2Proof.Machine

variable {T : Type}

/-! ### The source lane of a fixed rule -/

section SourceLane
variable {R s r l : Nat}

/-- The source lane is a bank (40_permute.md R83). -/
theorem sourceLane_lt (hR : 0 < R) : sourceLane R s r < R := Nat.mod_lt _ hR

/-- `outputLane` is `(l - s) mod R` as an integer (40_permute.md R87). -/
theorem outputLane_cast (hR : 0 < R) : (outputLane R s l : Int) = ((l : Int) - s) % R :=
  Int.toNat_of_nonneg (Int.emod_nonneg _ (by omega))

/-- The output lane that reads a bank is one of the `R` (40_permute.md R87). -/
theorem outputLane_lt (hs : s < R) (hl : l < R) : outputLane R s l < R := by
  rw [outputLane_cases hs hl]
  split <;> omega

/-- Output lane `r` reads bank `l` exactly when it is the output lane of `l`: both directions of the bijection (40_permute.md R87). -/
theorem sourceLane_eq_iff_eq_outputLane (hs : s < R) (hr : r < R) (hl : l < R) :
    sourceLane R s r = l ↔ r = outputLane R s l := by
  rw [sourceLane_cases hs hr, outputLane_cases hs hl]
  split <;> split <;> omega

/-- The output lane of a bank reads that bank. -/
theorem sourceLane_outputLane (hs : s < R) (hl : l < R) : sourceLane R s (outputLane R s l) = l :=
  (sourceLane_eq_iff_eq_outputLane hs (outputLane_lt hs hl) hl).2 rfl

/-- The source offset with the time offset first, as the rules write it (40_permute.md R84). -/
theorem sourceOffset_eq_time_add (t r : Nat) : sourceOffset t r = t + r := Nat.add_comm r t

end SourceLane

/-- Settles O14: `outputLane` inverts `sourceLane` on `[0, R)`, which gives existence, uniqueness and the offset. -/
theorem sourceLaneIsABijection : Obligations.SourceLaneIsABijection := by
  intro R s hs
  have hR : 0 < R := Nat.zero_lt_of_lt hs
  refine ⟨fun r _ => sourceLane_lt hR, fun l hl => ?_,
    fun l hl => ⟨outputLane_lt hs hl, outputLane_cast hR, sourceLane_outputLane hs hl⟩, fun t l hl r hr hlane => ?_⟩
  · exact ⟨outputLane R s l, ⟨outputLane_lt hs hl, sourceLane_outputLane hs hl⟩,
      fun r ⟨hr, hlane⟩ => (sourceLane_eq_iff_eq_outputLane hs hr hl).1 hlane⟩
  · rw [sourceOffset_eq_time_add, (sourceLane_eq_iff_eq_outputLane hs hr hl).1 hlane]

/-! ### The source lane at a power of two -/

/-- The bit test accepts the powers of two alone (60_exceptions.md R151). -/
theorem exists_eq_two_pow_of_isPowerOfTwo {n : Nat} (h : isPowerOfTwo n = true) : ∃ k, n = 2 ^ k := by
  obtain ⟨hpos, hand⟩ : 1 ≤ n ∧ n &&& (n - 1) = 0 := by simpa [isPowerOfTwo] using h
  exact (Nat.and_sub_one_eq_zero_iff_isPowerOfTwo (Nat.ne_of_gt hpos)).1 hand

/-- At a power of two the reduction is a mask (00_scope.md R14, 40_permute.md R83). -/
theorem mod_eq_and_sub_one {R : Nat} (h : isPowerOfTwo R = true) (x : Nat) : x % R = x &&& (R - 1) := by
  obtain ⟨k, rfl⟩ := exists_eq_two_pow_of_isPowerOfTwo h
  exact (Nat.and_two_pow_sub_one_eq_mod x k).symm

/-- A power of two is `2` to its logarithm. -/
theorem two_pow_log2_of_isPowerOfTwo {R : Nat} (h : isPowerOfTwo R = true) : 2 ^ Nat.log2 R = R := by
  obtain ⟨k, rfl⟩ := exists_eq_two_pow_of_isPowerOfTwo h
  rw [Nat.log2_two_pow]

/-- Settles O15: the mask form holds for every sum, the explicit cases are the lane without its reduction, and the narrow sums are
sums modulo `2 ^ log2 R = R`. -/
theorem sourceLaneEqualsItsMaskForm : Obligations.SourceLaneEqualsItsMaskForm := by
  intro R hpow
  have hlog := two_pow_log2_of_isPowerOfTwo hpow
  have hR : 0 < R := hlog ▸ Nat.two_pow_pos _
  refine ⟨mod_eq_and_sub_one hpow, fun s r hs hr => ?_, ?_⟩
  · have hcases := sourceLane_cases (R := R) (s := s) (r := r) (by omega) (by omega)
    have hlt : sourceLane R s r < R := sourceLane_lt hR
    refine ⟨by omega, by omega, mod_eq_and_sub_one hpow _, fun hsum => ?_, fun hsum => ?_, ?_, ?_⟩
    · rw [hcases, if_pos (by omega)]
    · rw [hcases, if_neg (by omega)]
    · rw [Nat.pow_succ, hlog]
      omega
    · rw [hlog, sourceLane]
  · rintro rfl s r
    exact Nat.mod_one _

/-! ### The dispatch chain -/

/-- The chain performs the rule it selects (40_permute.md R90, R91). -/
theorem chainOutput_eq_ruleOutput_chainRule (st : State T) (n : Nat) (s : Int) (t : Nat) :
    chainOutput st n s t = ruleOutput st (chainRule n s) t := by
  induction n with
  | zero => rfl
  | succ n ih =>
    rw [chainOutput, chainRule, ih]
    split <;> rfl

/-- The chain finds every stage index it tests or falls through to, and selects the rule of that number (40_permute.md R92, R93). -/
theorem chainRule_natCast {n s : Nat} (h : s ≤ n) : chainRule n s = s := by
  induction n with
  | zero => exact (Nat.le_zero.1 h).symm
  | succ n ih =>
    rw [chainRule]
    split
    · omega
    · exact ih (by omega)

/-- Settles O16: the chain performs the rule it selects, and by induction on its stages that is the rule of the stage index. -/
theorem dispatchChainEqualsClosedForm : Obligations.DispatchChainEqualsClosedForm := by
  refine ⟨fun st k s t _ hs => ?_, fun R s hs => ?_⟩
  · rw [chainOutput_eq_ruleOutput_chainRule, chainRule_natCast (by omega)]
  · have hrule : chainRule (R - 1) s = s := chainRule_natCast (by omega)
    exact ⟨hrule, fun r => by rw [hrule, sourceLane]⟩

/-! ### The tests of `PERMUTE` before the reads -/

section Check
variable {st : State T} {s t : Int}

/-- Test 1: the block does not own the banks (40_permute.md R82). -/
theorem checkCommand_of_fill (hp : st.phase = .fill) : checkCommand st s t = some (.ownershipViolation .permute) := by
  rw [checkCommand_eq, if_pos (by simp [hp])]

variable (hp : st.phase = .drain)
include hp

/-- Test 2: the stage index is no rule number (40_permute.md R82, 60_exceptions.md R154). -/
theorem checkCommand_of_stageIndex (hs : s < 0 ∨ (st.config.radix : Int) - 1 < s) :
    checkCommand st s t = some (.stageIndexRange s) := by
  rw [checkCommand_eq, if_neg (not_not.2 hp), if_pos hs]

/-- Test 3: the time offset is no bank offset (40_permute.md R82, 60_exceptions.md R155). -/
theorem checkCommand_of_timeOffset (hs : 0 ≤ s ∧ s ≤ (st.config.radix : Int) - 1)
    (ht : t < 0 ∨ (depthOf st.config : Int) - 1 < t) : checkCommand st s t = some (.timeOffsetRange t) := by
  rw [checkCommand_eq, if_neg (not_not.2 hp), if_neg (by omega), if_pos ht]

/-- Test 4: the last source offset is past the banks (40_permute.md R82, 60_exceptions.md R167). -/
theorem checkCommand_of_sourceOffset (hs : 0 ≤ s ∧ s ≤ (st.config.radix : Int) - 1)
    (ht : 0 ≤ t ∧ t ≤ (depthOf st.config : Int) - 1)
    (ho : (depthOf st.config : Int) - 1 < t + ((st.config.radix : Int) - 1)) :
    checkCommand st s t = some (.sourceOffsetRange t ((depthOf st.config : Int) - t)) := by
  rw [checkCommand_eq, if_neg (not_not.2 hp), if_neg (by omega), if_neg (by omega), if_pos ho]

end Check

/-! ### The reads of one rule -/

/-- The ascending lanes split at each of them, with exactly the smaller ones before it. -/
theorem range_eq_append_cons {n r : Nat} (h : r < n) : ∃ after, List.range n = List.range r ++ r :: after := by
  obtain ⟨k, rfl⟩ := Nat.exists_eq_add_of_lt h
  exact ⟨_, by rw [Nat.add_assoc, List.range_add, List.range_succ_eq_map, List.map_cons, Nat.add_zero]⟩

/-- The first unpopulated source element in ascending lane is the fault (40_permute.md R82 test 5, 60_exceptions.md R156). -/
theorem ruleOutput_of_first_unpopulated {st : State T} {s t r : Nat} (hr : r < st.config.radix)
    (hbefore : ∀ r' < r, populated st.banks (sourceLane st.config.radix s r') (sourceOffset t r') = true)
    (hnot : populated st.banks (sourceLane st.config.radix s r) (sourceOffset t r) = false) :
    ruleOutput st s t = .error (.unpopulatedRead (sourceLane st.config.radix s r) (sourceOffset t r)) := by
  obtain ⟨after, hsplit⟩ := range_eq_append_cons hr
  exact gather_error_iff.2 ⟨List.range r, r, after, hsplit, fun r' hr' => hbefore r' (List.mem_range.1 hr'), hnot, rfl⟩

/-- With all its source elements populated a rule succeeds (40_permute.md R80). -/
theorem ruleOutput_of_sourcesPopulated {st : State T} {s t : Nat} (hpop : SourcesPopulated st s t) :
    ∃ v, ruleOutput st s t = .ok v := by
  cases h : ruleOutput st s t with
  | ok v => exact ⟨v, rfl⟩
  | error f =>
    obtain ⟨before, r, after, hsplit, -, hnot, -⟩ := gather_error_iff.1 h
    have hr : r ∈ List.range st.config.radix := by simp [hsplit]
    cases hnot.symm.trans (hpop r (List.mem_range.1 hr))

/-! ### The outcomes of `PERMUTE` on a running, well-configured network -/

section Outcome
variable {st : State} {s t : Int} (hf : st.fault = none) (hc : configOk st.config)
include hf hc

/-- A command that fails one of the first four tests takes that fault. -/
theorem exec_permute_of_checkCommand {f : FaultRecord} (h : checkCommand st s t = some f) :
    exec (.permute s t) st = .next (takeFault f st) := by
  rw [exec_permute_eq_operate, operate_running hf hc, permuteAct, h]

variable (hp : st.phase = .drain) (hv : validCommand st.config s t)
include hp hv

/-- A valid command in phase `DRAIN` takes the fault of its reads. -/
theorem exec_permute_of_ruleOutput_error {f : FaultRecord} (h : ruleOutput st s.toNat t.toNat = .error f) :
    exec (.permute s t) st = .next (takeFault f st) := by
  rw [exec_permute_eq_operate, operate_running hf hc, permuteAct, (checkCommand_none_iff st s t).2 ⟨hp, hv⟩, h]

/-- A valid command in phase `DRAIN` whose reads succeed appends what they give. -/
theorem exec_permute_of_ruleOutput_ok {v : List Sample} (h : ruleOutput st s.toNat t.toNat = .ok v) :
    exec (.permute s t) st = .next (emitVector v st) := by
  rw [exec_permute_eq_operate, operate_running hf hc, permuteAct, (checkCommand_none_iff st s t).2 ⟨hp, hv⟩, h]

end Outcome

/-- Settles O8: each of the first four tests is the check's own answer, the fifth is the first read that fails, and with none failing
the reads give the vector that is appended. -/
theorem permuteReportsTheFirstFailingTest : Obligations.PermuteReportsTheFirstFailingTest := by
  intro st s t hf hc
  refine ⟨fun hp => ?_, fun hp hs => ?_, fun hp hs hs' ht => ?_, fun hp hs hs' ht ht' ho => ?_,
    fun hp hv r hr hbefore hnot => ?_, fun hp hv hpop => ?_⟩
  · exact exec_permute_of_checkCommand hf hc (checkCommand_of_fill hp)
  · exact exec_permute_of_checkCommand hf hc (checkCommand_of_stageIndex hp hs)
  · exact exec_permute_of_checkCommand hf hc (checkCommand_of_timeOffset hp ⟨hs, hs'⟩ ht)
  · exact exec_permute_of_checkCommand hf hc (checkCommand_of_sourceOffset hp ⟨hs, hs'⟩ ⟨ht, ht'⟩ ho)
  · have hrule := ruleOutput_of_first_unpopulated (s := s.toNat) (t := t.toNat) hr
    simp only [sourceLane, sourceOffset_eq_time_add] at hrule
    exact exec_permute_of_ruleOutput_error hf hc hp hv (hrule hbefore hnot)
  · obtain ⟨v, hrule⟩ := ruleOutput_of_sourcesPopulated hpop
    exact ⟨v, exec_permute_of_ruleOutput_ok hf hc hp hv hrule⟩

/-- Settles O7: with every source element populated the rule's reads succeed, and lane `r` of their vector is what its source element
holds. -/
theorem permuteAppendsItsDiagonal : Obligations.PermuteAppendsItsDiagonal := by
  intro st s t hf hc hp hs ht hpop
  obtain ⟨v, hrule⟩ := ruleOutput_of_sourcesPopulated hpop
  have hv : validCommand st.config s t := by
    simp only [validCommand]
    omega
  refine ⟨v, ruleOutput_length hrule, fun r hr => ?_, exec_permute_of_ruleOutput_ok hf hc hp hv hrule⟩
  rw [ruleOutput_lane hrule hr, sourceLane, sourceOffset_eq_time_add]

end Sys2Proof.Machine
end

section
/-!
PROOFS. Family `41_drain.md`: the default drive order read backwards, from a bank element to the command and output lane that read it
(R103, R104).
-/

namespace Sys2Proof.Machine

/-! ### The default drive order -/

section DefaultDriveOrder
variable {R D i r l o : Nat}

/-- Adding a position below `R` to a multiple of `R` keeps it in its block, so below every multiple of `R` the block lies below. -/
theorem blockStart_add_lt (hD : R ∣ D) (hi : i < D) (hr : r < R) : i / R * R + r < D := by
  obtain ⟨b, rfl⟩ := hD
  have hblock : i / R + 1 ≤ b := Nat.div_lt_of_lt_mul hi
  calc i / R * R + r < i / R * R + R := by omega
    _ = R * (i / R + 1) := by rw [Nat.mul_comm, Nat.mul_succ]
    _ ≤ R * b := Nat.mul_le_mul_left R hblock

/-- A number is known by its block and its position in the block. -/
theorem eq_blockStart_add_iff {n k : Nat} (hr : r < R) : n = k * R + r ↔ n / R = k ∧ n % R = r := by
  rw [Nat.div_mod_unique (Nat.zero_lt_of_lt hr), Nat.mul_comm, Nat.add_comm]
  exact ⟨fun h => ⟨h.symm, hr⟩, fun h => h.1.symm⟩

/-- The rule and the output lane enter the source lane alike (40_permute.md R83). -/
theorem sourceLane_comm (s : Nat) : sourceLane R s r = sourceLane R r s := by
  rw [sourceLane, sourceLane, Nat.add_comm]

/-- Command `i` of the default drive order reads element `(l, o)` on output lane `r` exactly when `r` is the position of `o` in its
block and `i` is the command of that block whose rule sends bank `l` there: R104 read backwards. -/
theorem driveCommand_reads_iff (hr : r < R) (hl : l < R) :
    (sourceLane R (driveCommand R i).1 r = l ∧ sourceOffset (driveCommand R i).2 r = o) ↔
      i = o / R * R + outputLane R (o % R) l ∧ r = o % R := by
  have hs : i % R < R := Nat.mod_lt i (Nat.zero_lt_of_lt hr)
  have hlane : sourceLane R (i % R) r = l ↔ i % R = outputLane R r l := by
    rw [sourceLane_comm, sourceLane_eq_iff_eq_outputLane hr hs hl]
  have hoffset : sourceOffset (i / R * R) r = o ↔ o / R = i / R ∧ o % R = r := by
    rw [sourceOffset_eq_time_add, eq_comm, eq_blockStart_add_iff hr]
  have hpos : o % R < R := Nat.mod_lt o (Nat.zero_lt_of_lt hr)
  simp only [driveCommand]
  rw [hlane, hoffset, eq_blockStart_add_iff (outputLane_lt hpos hl)]
  constructor
  · rintro ⟨hi, hblock, rfl⟩
    exact ⟨⟨hblock.symm, hi⟩, rfl⟩
  · rintro ⟨⟨hblock, hi⟩, rfl⟩
    exact ⟨hi, hblock.symm, rfl⟩

/-- Exactly one command and output lane of the default drive order read a bank element (41_drain.md R104). -/
theorem existsUnique_driveCommand_reads (hD : R ∣ D) (hl : l < R) (ho : o < D) :
    ∃! p : Nat × Nat, p.1 < D ∧ p.2 < R ∧
      sourceLane R (driveCommand R p.1).1 p.2 = l ∧ sourceOffset (driveCommand R p.1).2 p.2 = o := by
  have hpos : o % R < R := Nat.mod_lt o (Nat.zero_lt_of_lt hl)
  refine ⟨(o / R * R + outputLane R (o % R) l, o % R), ⟨?_, hpos, ?_⟩, ?_⟩
  · exact blockStart_add_lt hD ho (outputLane_lt hpos hl)
  · exact (driveCommand_reads_iff hpos hl).2 ⟨rfl, rfl⟩
  · rintro ⟨i, r⟩ ⟨-, hr, hreads⟩
    obtain ⟨hi, hlane⟩ := (driveCommand_reads_iff hr hl).1 hreads
    exact Prod.ext hi hlane

/-- The time offsets of the default drive order are the multiples of `R` in range (41_drain.md R103). -/
theorem exists_driveCommand_time_iff (hR : 0 < R) (hD : R ∣ D) (t : Nat) :
    (∃ i < D, (driveCommand R i).2 = t) ↔ R ∣ t ∧ t < D := by
  constructor
  · rintro ⟨i, hi, rfl⟩
    exact ⟨Nat.dvd_mul_left R (i / R), blockStart_add_lt hD hi hR⟩
  · rintro ⟨hdvd, ht⟩
    exact ⟨t, ht, Nat.div_mul_cancel hdvd⟩

end DefaultDriveOrder

/-- Command `i` of the default drive sequence is `DRIVE(i)`, and there are `DEPTH` of them (41_drain.md R103). -/
theorem driveSequence_getElem? (c : Config) (i : Nat) :
    (driveSequence c)[i]? = if i < depthOf c then some (driveCommand c.radix i) else none := by
  rw [driveSequence, List.getElem?_map]
  split
  next hi => rw [List.getElem?_range hi, Option.map_some]
  next hi => rw [List.getElem?_eq_none (by simpa using hi), Option.map_none]

/-- In a drainable configuration `R` divides the depth (41_drain.md R101). -/
theorem radix_dvd_depth {c : Config} (h : Drainable c) : c.radix ∣ depthOf c :=
  ⟨_, depth_of_drainable (configOk_arith h.1).1 h.2⟩

/-- Settles O40: `driveCommand_reads_iff` names the one command and lane that read an element, and `R` divides the depth, so whole blocks
of `R` commands fill it. -/
theorem fullDrainCoversEveryElementOnce : Obligations.FullDrainCoversEveryElementOnce := by
  intro c hc
  have hR : 0 < c.radix := (configOk_arith hc.1).1
  have hD : c.radix ∣ depthOf c := radix_dvd_depth hc
  refine ⟨driveSequence_getElem? c, fun i hi r hr => ⟨rfl, sourceOffset_eq_time_add _ _, sourceLane_lt hR, ?_⟩,
    fun l hl o ho => existsUnique_driveCommand_reads hD hl ho, exists_driveCommand_time_iff hR hD⟩
  rw [sourceOffset_eq_time_add]
  exact blockStart_add_lt hD hi hr

end Sys2Proof.Machine
end

section
/-!
PROOFS. Family `42_table_sizing.md`: the inputs without a fault have a descriptor (R111), and its lengths are those of the rules (R112
to R118).
-/

namespace Sys2Proof.Machine

/-! ### The inputs without a fault -/

/-- The bit test accepts every power of two, `1` among them (60_exceptions.md R151). -/
@[simp] theorem isPowerOfTwo_two_pow (k : Nat) : isPowerOfTwo (2 ^ k) = true := by
  have hpos : 0 < 2 ^ k := Nat.two_pow_pos k
  have hand : 2 ^ k &&& (2 ^ k - 1) = 0 := (Nat.and_sub_one_eq_zero_iff_isPowerOfTwo (Nat.ne_of_gt hpos)).2 ⟨k, rfl⟩
  simp [isPowerOfTwo, hand, Nat.one_le_two_pow]

/-- An integer power of two is at least `1`. -/
theorem one_le_of_exists_two_pow {R : Int} (h : ∃ k : Nat, R = 2 ^ k) : 1 ≤ R := by
  obtain ⟨k, rfl⟩ := h
  exact one_le_pow₀ (by decide)

/-- An integer power of two passes the bit test. -/
theorem isPowerOfTwo_toNat {R : Int} (h : ∃ k : Nat, R = 2 ^ k) : isPowerOfTwo R.toNat = true := by
  obtain ⟨k, rfl⟩ := h
  exact isPowerOfTwo_two_pow k

/-- Inputs that pass the three sizing tests have no sizing fault (42_table_sizing.md R111). -/
theorem sizingFault_eq_none {i : TraitsInput} (hR : ∃ k : Nat, i.radix = 2 ^ k) (hL : 1 ≤ i.length)
    (hff : 0 ≤ i.forkingFactor) : sizingFault i = none := by
  have hradix : ¬(i.radix < 1 || !isPowerOfTwo i.radix.toNat) = true := by
    simp [one_le_of_exists_two_pow hR, isPowerOfTwo_toNat hR]
  rw [sizingFault, if_neg hradix, if_neg (Int.not_lt.2 hL), if_neg (Int.not_lt.2 hff)]

/-- Inputs with neither a sizing nor a typing fault have a descriptor, whose sizing half is `sizingOf` (42_table_sizing.md R118). -/
theorem tableTraits_of_faults_none {i : TraitsInput} (hs : sizingFault i = none) (ht : typingFault i.rep = none) :
    ∃ d, tableTraits i = .ok d ∧ d.sizing = sizingOf i := by
  have hfault : traitsFault i = none := by rw [traitsFault, hs, ht]
  exact ⟨_, by rw [tableTraits, hfault], rfl⟩

/-! ### The lengths -/

section Lengths
variable {L R ff : Int}

/-- `twiddleTableLength` is `floor(L/4)` as an integer (42_table_sizing.md R112). -/
theorem twiddleTableLength_cast (hL : 0 ≤ L) : (twiddleTableLength L : Int) = L / 4 :=
  Int.toNat_of_nonneg (Int.ediv_nonneg hL (by decide))

/-- `expTableLength` as an integer (42_table_sizing.md R115). -/
theorem expTableLength_cast (hR : 0 ≤ R) : (expTableLength R ff : Int) = if ff = 0 ∧ R = 2 then 4 else R := by
  rw [expTableLength]
  split
  · rfl
  · exact Int.toNat_of_nonneg hR

/-- With forking factor 0 there is no last-stage length (42_table_sizing.md R116). -/
@[simp] theorem expTableLengthLastStage_zero (R : Int) : expTableLengthLastStage R 0 = none := rfl

/-- With a positive forking factor the last-stage length is `floor(R/forkingFactor)` (42_table_sizing.md R116). -/
theorem expTableLengthLastStage_of_pos (hR : 0 ≤ R) (hff : 0 < ff) :
    ∃ n : Nat, expTableLengthLastStage R ff = some n ∧ (n : Int) = R / ff :=
  ⟨(R / ff).toNat, if_pos hff, Int.toNat_of_nonneg (Int.ediv_nonneg hR (Int.le_of_lt hff))⟩

end Lengths

/-- Settles O45: inputs without a fault have the descriptor of `sizingOf`; each length in it is its rule's, and each extended
counterpart is by definition the maximum with `MIN_TABLE_LEN` (42_table_sizing.md R113). -/
theorem descriptorHoldsTheTabledLengths : Obligations.DescriptorHoldsTheTabledLengths := by
  intro i hR hL hff ht
  have hRnonneg : 0 ≤ i.radix := Int.le_trans (by decide) (one_le_of_exists_two_pow hR)
  have hLnonneg : 0 ≤ i.length := Int.le_trans (by decide) hL
  obtain ⟨d, hd, hsizing⟩ := tableTraits_of_faults_none (sizingFault_eq_none hR hL hff) ht
  refine ⟨d, hd, ?_⟩
  rw [hsizing]
  refine ⟨twiddleTableLength_cast hLnonneg, rfl, expTableLength_cast hRnonneg, rfl, fun hzero => ?_,
    expTableLengthLastStage_of_pos hRnonneg, rfl, rfl⟩
  rw [sizingOf, hzero, expTableLengthLastStage_zero]

end Sys2Proof.Machine
end

section
/-!
PROOFS. Family `43_table_types.md`: raw integers under the wrap and the clamp (R135, R136), the reference casts on a value of the format
and within its range, and the six properties of the reference `Numerics` (R142).
-/

namespace Sys2Proof.Machine

/-! ### Raw integers -/

section Raw
variable {W : Nat} {q : Int}

/-- A format of `W` bits has twice `2^(W-1)` raw integers (43_table_types.md R131). -/
theorem two_pow_wordLength (hW : 1 ≤ W) : (2 : Int) ^ W = 2 * 2 ^ (W - 1) :=
  (mul_pow_sub_one (Nat.ne_of_gt hW) 2).symm

theorem rawMin_le_rawMax (W : Nat) : rawMin W ≤ rawMax W := by
  have hpos : (0 : Int) < 2 ^ (W - 1) := pow_pos (by decide) _
  rw [rawMin, rawMax]
  omega

/-- The low `W` bits, read as two's complement, are a raw integer of the format (43_table_types.md R135). -/
theorem wrapRaw_mem (hW : 1 ≤ W) (q : Int) : rawMin W ≤ wrapRaw W q ∧ wrapRaw W q ≤ rawMax W := by
  have hpos : (0 : Int) < 2 ^ W := pow_pos (by decide) _
  have hlow := Int.emod_nonneg (q + 2 ^ (W - 1)) (ne_of_gt hpos)
  have hhigh := Int.emod_lt_of_pos (q + 2 ^ (W - 1)) hpos
  have hW2 := two_pow_wordLength hW
  rw [wrapRaw, rawMin, rawMax]
  omega

/-- The wrap keeps a raw integer of the format (43_table_types.md R135). -/
theorem wrapRaw_of_mem (hW : 1 ≤ W) (hlow : rawMin W ≤ q) (hhigh : q ≤ rawMax W) : wrapRaw W q = q := by
  have hW2 := two_pow_wordLength hW
  rw [rawMin] at hlow
  rw [rawMax] at hhigh
  rw [wrapRaw, Int.emod_eq_of_lt (by omega) (by omega), Int.add_sub_cancel]

/-- The clamp ends in the range (43_table_types.md R136). -/
theorem clampRaw_mem (W : Nat) (q : Int) : rawMin W ≤ clampRaw W q ∧ clampRaw W q ≤ rawMax W :=
  ⟨le_min (le_max_right _ _) (rawMin_le_rawMax W), min_le_right _ _⟩

/-- The clamp keeps a raw integer of the format (43_table_types.md R136). -/
theorem clampRaw_of_mem (hlow : rawMin W ≤ q) (hhigh : q ≤ rawMax W) : clampRaw W q = q := by
  rw [clampRaw, max_eq_left hlow, min_eq_left hhigh]

/-- One step above the maximum wraps to the minimum (43_table_types.md R135). -/
theorem wrapRaw_rawMax_add_one (hW : 1 ≤ W) : wrapRaw W (rawMax W + 1) = rawMin W := by
  rw [wrapRaw, rawMax, rawMin, Int.sub_add_cancel, ← two_mul, ← two_pow_wordLength hW, Int.emod_self, Int.zero_sub]

/-- One step above the maximum clamps to the maximum (43_table_types.md R136). -/
theorem clampRaw_rawMax_add_one (W : Nat) : clampRaw W (rawMax W + 1) = rawMax W :=
  min_eq_right (le_max_of_le_left (Int.le_of_lt (Int.lt_succ _)))

end Raw

/-! ### Fixed-point values -/

section Value
variable {W : Nat} {I raw : Int} {v : Rat}

/-- The next raw integer stands for the value one step higher (43_table_types.md R131). -/
theorem fixedValue_add_one (W : Nat) (I raw : Int) :
    fixedValue W I (raw + 1) = fixedValue W I raw + pow2 (-(fracBits W I)) := by
  rw [fixedValue, fixedValue, Int.cast_add, Int.cast_one, add_one_mul]

/-- The minimum of the format is `-2^(I-1)` (43_table_types.md R131). -/
theorem fixedValue_rawMin (hW : 1 ≤ W) (I : Int) : fixedValue W I (rawMin W) = -pow2 (I - 1) := by
  have hraw : ((rawMin W : Int) : Rat) = -pow2 ((W - 1 : Nat) : Int) := by
    rw [rawMin, pow2_eq_zpow, zpow_natCast]
    push_cast
    rfl
  have hexp : ((W - 1 : Nat) : Int) + -(fracBits W I) = I - 1 := by
    rw [fracBits]
    omega
  rw [fixedValue, hraw, neg_mul, ← pow2_add, hexp]

/-- One step above the maximum of the format is `2^(I-1)` (43_table_types.md R131). -/
theorem fixedValue_rawMax_add_one (hW : 1 ≤ W) (I : Int) : fixedValue W I (rawMax W + 1) = pow2 (I - 1) := by
  have hraw : rawMax W + 1 = -rawMin W := by rw [rawMax, rawMin, Int.sub_add_cancel, Int.neg_neg]
  rw [← neg_neg (pow2 (I - 1)), ← fixedValue_rawMin hW, hraw, fixedValue, fixedValue, Int.cast_neg, neg_mul]

/-- The maximum of the format is `2^(I-1) - 2^(-F)` (43_table_types.md R131). -/
theorem fixedValue_rawMax (hW : 1 ≤ W) (I : Int) :
    fixedValue W I (rawMax W) = pow2 (I - 1) - pow2 (-(fracBits W I)) := by
  rw [← fixedValue_rawMax_add_one hW, fixedValue_add_one, add_sub_cancel_right]

/-- A value lies within the range exactly when it does so in raw units (43_table_types.md R131). -/
theorem withinRange_iff :
    WithinRange W I v ↔ (rawMin W : Rat) ≤ v * pow2 (fracBits W I) ∧ v * pow2 (fracBits W I) ≤ (rawMax W : Rat) :=
  and_congr (fixedValue_le_iff W I _ v) (le_fixedValue_iff W I _ v)

/-- Every raw integer of the format stands for a value within the range (43_table_types.md R131). -/
theorem withinRange_fixedValue (hlow : rawMin W ≤ raw) (hhigh : raw ≤ rawMax W) : WithinRange W I (fixedValue W I raw) := by
  rw [withinRange_iff, fixedValue_mul]
  exact ⟨Int.cast_le.2 hlow, Int.cast_le.2 hhigh⟩

/-- Half a raw unit is half a step of the format. -/
theorem abs_fixedValue_sub_le (h : |(raw : Rat) - v * pow2 (fracBits W I)| ≤ 1 / 2) :
    |fixedValue W I raw - v| ≤ pow2 (-(fracBits W I) - 1) := by
  have hhalf : pow2 (-(fracBits W I) - 1) = 1 / 2 * pow2 (-(fracBits W I)) := by
    rw [sub_eq_add_neg, pow2_add, mul_comm]
    rfl
  have hsub : fixedValue W I raw - v = (raw - v * pow2 (fracBits W I)) * pow2 (-(fracBits W I)) := by
    rw [fixedValue, sub_mul, mul_assoc v, mul_comm (pow2 (fracBits W I)), pow2_mul_neg, mul_one]
  rw [hsub, hhalf, abs_mul, abs_of_pos (pow2_pos _)]
  exact mul_le_mul_of_nonneg_right h (pow2_pos _).le

end Value

/-! ### The reference casts -/

section Casts
variable {W : Nat} {I : Int} {v : Rat}

/-- On a value of some raw integer, in range or not, the truncating cast wraps that integer (43_table_types.md R135). -/
theorem castTrunc_fixedValue (W : Nat) (I raw : Int) :
    castTrunc W I (fixedValue W I raw) = fixedValue W I (wrapRaw W raw) := by
  rw [castTrunc, truncRaw, fixedValue_mul, Int.floor_intCast]

/-- On a value of some raw integer, in range or not, the rounding cast clamps that integer (43_table_types.md R136). -/
theorem castRndSat_fixedValue (W : Nat) (I raw : Int) :
    castRndSat W I (fixedValue W I raw) = fixedValue W I (clampRaw W raw) := by
  have hhalf : ⌊(1 / 2 : Rat)⌋ = 0 := by norm_num
  rw [castRndSat, rndSatRaw, fixedValue_mul, Int.floor_intCast_add, hhalf, Int.add_zero]

/-- The truncating cast ends in the format (43_table_types.md R135). -/
theorem castTrunc_representable (hW : 1 ≤ W) (I : Int) (v : Rat) : Representable W I (castTrunc W I v) :=
  ⟨_, (wrapRaw_mem hW _).1, (wrapRaw_mem hW _).2, rfl⟩

/-- The rounding cast ends in the format (43_table_types.md R136). -/
theorem castRndSat_representable (W : Nat) (I : Int) (v : Rat) : Representable W I (castRndSat W I v) :=
  ⟨_, (clampRaw_mem W _).1, (clampRaw_mem W _).2, rfl⟩

/-- The truncating cast keeps a value of the format (43_table_types.md R140). -/
theorem castTrunc_of_representable (hW : 1 ≤ W) (hv : Representable W I v) : castTrunc W I v = v := by
  obtain ⟨raw, hlow, hhigh, rfl⟩ := hv
  rw [castTrunc_fixedValue, wrapRaw_of_mem hW hlow hhigh]

/-- The rounding cast keeps a value of the format (43_table_types.md R140). -/
theorem castRndSat_of_representable (hv : Representable W I v) : castRndSat W I v = v := by
  obtain ⟨raw, hlow, hhigh, rfl⟩ := hv
  rw [castRndSat_fixedValue, clampRaw_of_mem hlow hhigh]

/-- While the floor does not overflow, the truncating cast is the step at or below its operand (43_table_types.md R141). -/
theorem castTrunc_floor_bounds (hW : 1 ≤ W) (hlow : rawMin W ≤ ⌊v * pow2 (fracBits W I)⌋)
    (hhigh : ⌊v * pow2 (fracBits W I)⌋ ≤ rawMax W) :
    castTrunc W I v ≤ v ∧ v < castTrunc W I v + pow2 (-(fracBits W I)) := by
  rw [castTrunc, truncRaw, wrapRaw_of_mem hW hlow hhigh]
  refine ⟨(fixedValue_le_iff ..).2 (Int.floor_le _), ?_⟩
  rw [← fixedValue_add_one, ← not_le, fixedValue_le_iff, not_le, Int.cast_add, Int.cast_one]
  exact Int.lt_floor_add_one _

/-- While the rounded integer does not overflow, the rounding cast is within half a step of its operand (43_table_types.md R141). -/
theorem abs_castRndSat_sub_le (hlow : rawMin W ≤ ⌊v * pow2 (fracBits W I) + 1 / 2⌋)
    (hhigh : ⌊v * pow2 (fracBits W I) + 1 / 2⌋ ≤ rawMax W) :
    |castRndSat W I v - v| ≤ pow2 (-(fracBits W I) - 1) := by
  rw [castRndSat, rndSatRaw, clampRaw_of_mem hlow hhigh]
  have hle := Int.floor_le (v * pow2 (fracBits W I) + 1 / 2)
  have hlt := Int.lt_floor_add_one (v * pow2 (fracBits W I) + 1 / 2)
  exact abs_fixedValue_sub_le (abs_le.2 ⟨by linarith, by linarith⟩)

/-- Within the range the floor does not overflow. -/
theorem floor_mem_of_withinRange (hv : WithinRange W I v) :
    rawMin W ≤ ⌊v * pow2 (fracBits W I)⌋ ∧ ⌊v * pow2 (fracBits W I)⌋ ≤ rawMax W := by
  obtain ⟨hlow, hhigh⟩ := withinRange_iff.1 hv
  exact ⟨Int.le_floor.2 hlow, Int.floor_le_iff.2 (by linarith)⟩

/-- Within the range the rounded integer does not overflow. -/
theorem round_mem_of_withinRange (hv : WithinRange W I v) :
    rawMin W ≤ ⌊v * pow2 (fracBits W I) + 1 / 2⌋ ∧ ⌊v * pow2 (fracBits W I) + 1 / 2⌋ ≤ rawMax W := by
  obtain ⟨hlow, hhigh⟩ := withinRange_iff.1 hv
  exact ⟨Int.le_floor.2 (by linarith), Int.floor_le_iff.2 (by linarith)⟩

end Casts

/-- Settles O52: the formulas are the definitions at the library's powers of two; `2^(I-1)` is the value of the raw integer one above the
maximum, which wraps to the minimum and clamps to the maximum. -/
theorem referenceCastsFollowTheirFormulas : Obligations.ReferenceCastsFollowTheirFormulas := by
  intro W I v hW
  refine ⟨?_, ?_, ?_, ?_⟩
  · rw [castTrunc, fixedValue, truncRaw, wrapRaw, pow2_eq_zpow, pow2_eq_zpow, fracBits]
  · rw [castRndSat, fixedValue, rndSatRaw, clampRaw, rawMin, rawMax, pow2_eq_zpow, pow2_eq_zpow, fracBits]
  · rw [← pow2_eq_zpow, ← fixedValue_rawMax_add_one hW, castTrunc_fixedValue, wrapRaw_rawMax_add_one hW,
      fixedValue_rawMin hW, fixedValue_rawMax_add_one hW]
  · rw [← pow2_eq_zpow, ← pow2_eq_zpow, ← fixedValue_rawMax_add_one hW, castRndSat_fixedValue, clampRaw_rawMax_add_one,
      fixedValue_rawMax hW, fixedValue_rawMax_add_one hW, fracBits]

/-- Settles O53: a float has a typing, and both reference casts of it return their operand. -/
theorem floatCastsAreTheIdentity : Obligations.FloatCastsAreTheIdentity :=
  ⟨⟨_, rfl, fun _ => rfl⟩, ⟨_, rfl, fun _ => rfl⟩, ⟨_, rfl, fun _ => rfl⟩, ⟨_, rfl, fun _ => rfl⟩⟩

/-! ### The six properties of the reference `Numerics` -/

/-- The reference truncating cast is idempotent at every representation with a typing (43_table_types.md R142, P1). -/
theorem reference_P1 : Numerics.reference.P1 := by
  intro rep htyping v
  cases rep with
  | f32 => rfl
  | f64 => rfl
  | fixed W I q o =>
    have hW : 1 ≤ W.toNat := by
      have := one_le_of_typing htyping
      omega
    exact castTrunc_of_representable hW (castTrunc_representable hW I v)

/-- Both reference casts are the identity on floats (43_table_types.md R142, P2). -/
theorem reference_P2 : Numerics.reference.P2 :=
  ⟨fun _ => rfl, fun _ => rfl, fun _ => rfl, fun _ => rfl⟩

/-- Both reference casts end in the format (43_table_types.md R142, P3). -/
theorem reference_P3 : Numerics.reference.P3 :=
  fun W I _ _ v hW => ⟨castTrunc_representable hW I v, castRndSat_representable W I v⟩

/-- Both reference casts keep a value of the format (43_table_types.md R142, P4). -/
theorem reference_P4 : Numerics.reference.P4 :=
  fun _ _ _ _ _ hW hv => ⟨castTrunc_of_representable hW hv, castRndSat_of_representable hv⟩

/-- The reference rounding cast ends in the range, near an operand within it (43_table_types.md R142, P5). -/
theorem reference_P5 : Numerics.reference.P5 := by
  intro W I q o v _
  obtain ⟨hlow, hhigh⟩ := clampRaw_mem W ⌊v * pow2 (fracBits W I) + 1 / 2⌋
  refine ⟨withinRange_fixedValue hlow hhigh, fun hv => ?_⟩
  obtain ⟨hlow, hhigh⟩ := round_mem_of_withinRange hv
  exact abs_castRndSat_sub_le hlow hhigh

/-- The reference truncating cast is the step at or below an operand within the range (43_table_types.md R142, P6). -/
theorem reference_P6 : Numerics.reference.P6 := by
  intro W I q o v hW hv
  obtain ⟨hlow, hhigh⟩ := floor_mem_of_withinRange hv
  exact castTrunc_floor_bounds hW hlow hhigh

/-- Settles O56: one lemma for each of P1 to P6. -/
theorem referenceNumericsSatisfyAllSix : Obligations.ReferenceNumericsSatisfyAllSix :=
  ⟨reference_P1, reference_P2, reference_P3, reference_P4, reference_P5, reference_P6⟩

end Sys2Proof.Machine
end

section
/-!
PROOFS. Family `70_reset_and_hazards.md`: what a run adds to the state it started from comes from the host steps of its list, and so
which commands fault in every run from reset (R171).
-/

namespace Sys2Proof.Machine

/-! ### What a run adds stems from its list -/

/-- The configuration is the same, and what `t` has beyond `s` comes from the list of `s`: a host step on the banks still to come, the
phase `DRAIN` (10_state.md R25), and a populated mark (10_state.md R24). -/
structure StemsFrom (s t : State) : Prop where
  config : t.config = s.config
  hostSteps : ∀ e ∈ t.inputs, quietEvent e = false → e ∈ s.inputs
  drainPhase : t.phase = .drain → s.phase = .drain ∨ Event.handOff ∈ s.inputs
  marks : ∀ l o : Nat, populated t.banks l o = true →
    populated s.banks l o = true ∨ ∃ v, Event.laneWrite l o v ∈ s.inputs

namespace StemsFrom
variable {s t u : State}

/-- Where phase and banks are as before, only the list matters. -/
theorem of_unchanged (hc : t.config = s.config) (hb : t.banks = s.banks) (hp : t.phase = s.phase)
    (hi : ∀ e ∈ t.inputs, quietEvent e = false → e ∈ s.inputs) : StemsFrom s t where
  config := hc
  hostSteps := hi
  drainPhase hdrain := .inl (hp ▸ hdrain)
  marks _ _ hpop := .inl (hb ▸ hpop)

/-- A state has nothing beyond itself. -/
theorem refl (s : State) : StemsFrom s s := of_unchanged rfl rfl rfl fun _ he _ => he

/-- The list of the middle state has no host step on the banks that the first list has not. -/
theorem trans (h : StemsFrom s t) (h' : StemsFrom t u) : StemsFrom s u where
  config := h'.config.trans h.config
  hostSteps e he hq := h.hostSteps e (h'.hostSteps e he hq) hq
  drainPhase hdrain := by
    obtain hdrain | hmem := h'.drainPhase hdrain
    · exact h.drainPhase hdrain
    · exact .inr (h.hostSteps _ hmem rfl)
  marks l o hpop := by
    obtain hpop | ⟨v, hmem⟩ := h'.marks l o hpop
    · exact h.marks l o hpop
    · exact .inr ⟨v, h.hostSteps _ hmem rfl⟩

end StemsFrom

/-- The commands of a drain are no host steps on the banks (41_drain.md R100). -/
theorem quietEvent_of_mem_drainEvents {c : Config} {e : Event} (he : e ∈ drainEvents c) : quietEvent e = true := by
  obtain ⟨p, -, rfl⟩ := List.mem_map.1 he
  rfl

/-- An element populated after a `LaneWrite` inside the banks was populated before it, or is the one written (20_memory.md R45). -/
theorem populated_writeElement_toNat {c : Config} {l o : Int} (ha : addressInRange c l o) {m : Memory} {v : Sample} {l' o' : Nat}
    (hpop : populated (writeElement m l.toNat o.toNat v) l' o' = true) :
    populated m l' o' = true ∨ ((l' : Int) = l ∧ (o' : Int) = o) := by
  by_cases hat : (l' : Int) = l ∧ (o' : Int) = o
  · exact .inr hat
  · rw [populated, read_write_other_toNat ha m v hat] at hpop
    exact .inl hpop

/-- An item of the run adds only what it stands for itself: a `HandOff` the phase, a `LaneWrite` its mark, a `DRAIN` commands alone. -/
theorem stemsFrom_of_eventAct {e : Event} {rest : List Event} {s t : State} (hi : s.inputs = e :: rest)
    (h : eventAct e (setInputs rest s) = .next t) : StemsFrom s t := by
  have hhead : e ∈ s.inputs := hi ▸ List.mem_cons_self
  have hrest : ∀ e' ∈ rest, quietEvent e' = false → e' ∈ s.inputs := fun e' he' _ => hi ▸ List.mem_cons_of_mem e he'
  obtain ⟨f, rfl⟩ | ⟨v, i, rfl, -, -⟩ | ⟨l, o, v, rfl, -, ha, rfl⟩ | ⟨rfl, rfl⟩ | ⟨rfl, rfl⟩ | ⟨rfl, rfl⟩ | ⟨request, rfl, rfl⟩ :=
    eventAct_next h
  · exact .of_unchanged rfl rfl rfl hrest
  · exact .of_unchanged rfl rfl rfl hrest
  · refine ⟨rfl, hrest, .inl, fun l' o' hpop => ?_⟩
    obtain hpop | ⟨rfl, rfl⟩ := populated_writeElement_toNat ha hpop
    · exact .inl hpop
    · exact .inr ⟨v, hhead⟩
  · exact ⟨rfl, hrest, fun _ => .inr hhead, fun _ _ => .inl⟩
  · exact ⟨rfl, hrest, nofun, fun _ _ => .inl⟩
  · refine .of_unchanged rfl rfl rfl fun e' he' hq => ?_
    obtain hdrive | he' := List.mem_append.1 he'
    · cases hq.symm.trans (quietEvent_of_mem_drainEvents hdrive)
    · exact hrest e' he' hq
  · exact .of_unchanged rfl rfl rfl hrest

/-- Every kind of step of `step_next` adds only what stems from the list. -/
theorem stemsFrom_of_step {s t : State} (h : step s = .next t) : StemsFrom s t := by
  obtain ⟨-, ⟨f, -, rfl⟩ | ⟨-, -, rfl⟩ | ⟨-, e, rest, hi, hact⟩⟩ := step_next h
  · exact .of_unchanged rfl rfl rfl fun _ he _ => List.mem_of_mem_tail he
  · exact .refl t
  · exact stemsFrom_of_eventAct hi hact

/-- A run that goes on makes its first step and then the others. -/
theorem runSteps_succ_next {k : Nat} {s u : State} (h : runSteps (k + 1) s = .next u) :
    ∃ t, step s = .next t ∧ runSteps k t = .next u := by
  rw [runSteps] at h
  cases hs : step s with
  | next t => exact ⟨t, rfl, by rwa [hs] at h⟩
  | fault r => rw [hs] at h; cases h
  | refused r => rw [hs] at h; cases h

/-- By induction on the steps of the run: a chain of `StemsFrom`. -/
theorem stemsFrom_of_runSteps {k : Nat} {s u : State} (h : runSteps k s = .next u) : StemsFrom s u := by
  induction k generalizing s with
  | zero =>
    cases h
    exact .refl u
  | succ k ih =>
    obtain ⟨t, hstep, hrun⟩ := runSteps_succ_next h
    exact (stemsFrom_of_step hstep).trans (ih hrun)

/-! ### Runs from reset -/

section FromReset
variable {c : Config} {es : List Event} {k : Nat} {st : State}
  (hrun : runSteps k { State.resetOf c with inputs := es } = .next st)
include hrun

/-- No step of a run writes the configuration (10_state.md R26). -/
theorem config_of_run : st.config = c := (stemsFrom_of_runSteps hrun).config

/-- Before the first `HandOff` the producer owns the banks (10_state.md R25, R33). -/
theorem phase_fill_of_run (hno : Event.handOff ∉ es) : st.phase = .fill := by
  cases hp : st.phase with
  | fill => rfl
  | drain =>
    obtain hreset | hmem := (stemsFrom_of_runSteps hrun).drainPhase hp
    · cases hreset
    · exact absurd hmem hno

/-- An element the run never writes is not populated (10_state.md R24, R33). -/
theorem populated_false_of_run {l o : Nat} (hno : ∀ v, Event.laneWrite l o v ∉ es) : populated st.banks l o = false := by
  cases hpop : populated st.banks l o with
  | false => rfl
  | true =>
    obtain hreset | ⟨v, hmem⟩ := (stemsFrom_of_runSteps hrun).marks l o hpop
    · cases hreset
    · exact absurd hmem (hno v)

end FromReset

/-! ### A command of an unpopulated element -/

/-- A valid command with an unpopulated source element faults at the first such output lane (40_permute.md R82 test 5). -/
theorem exec_permute_of_unpopulated {st : State} {s t r : Nat} (hf : st.fault = none) (hc : configOk st.config)
    (hp : st.phase = .drain) (hs : s < st.config.radix) (ht : t + st.config.radix ≤ depthOf st.config)
    (hr : r < st.config.radix)
    (hnot : populated st.banks (sourceLane st.config.radix s r) (sourceOffset t r) = false) :
    ∃ r' ≤ r, populated st.banks (sourceLane st.config.radix s r') (sourceOffset t r') = false ∧
      exec (.permute s t) st =
        .next (takeFault (.unpopulatedRead (sourceLane st.config.radix s r') (sourceOffset t r')) st) := by
  have hv : validCommand st.config s t := by
    simp only [validCommand]
    omega
  have hex : ∃ r, populated st.banks (sourceLane st.config.radix s r) (sourceOffset t r) = false := ⟨r, hnot⟩
  have hle : Nat.find hex ≤ r := Nat.find_min' hex hnot
  have hbefore : ∀ r' < Nat.find hex,
      populated st.banks (sourceLane st.config.radix s r') (sourceOffset t r') = true :=
    fun r' hr' => Bool.eq_true_of_not_eq_false (Nat.find_min hex hr')
  refine ⟨Nat.find hex, hle, Nat.find_spec hex, exec_permute_of_ruleOutput_error hf hc hp hv ?_⟩
  exact ruleOutput_of_first_unpopulated (by omega) hbefore (Nat.find_spec hex)

/-- Settles O59: without a `HandOff` the run is still in phase `FILL`, where the first test of every command fails; an element the run
never writes is still unpopulated, so the reads of the command fail there or earlier. -/
theorem commandsFaultBeforeHandOffOrOnUnwrittenElements : Obligations.CommandsFaultBeforeHandOffOrOnUnwrittenElements := by
  intro c es k st hc hrun hf
  obtain rfl := config_of_run hrun
  refine ⟨fun hno s t => ?_, fun s t hp hs ht r hr hno => ?_⟩
  · exact exec_permute_of_checkCommand hf hc (checkCommand_of_fill (phase_fill_of_run hrun hno))
  · exact exec_permute_of_unpopulated hf hc hp hs ht hr (populated_false_of_run hrun hno)

end Sys2Proof.Machine
end

section
/-!
PROOFS. The faults of the configuration (60_exceptions.md R151 to R153): the test for a power of two, the two faults of a network, and
the order of the faults of TableTraits with what each request is answered (42_table_sizing.md R111 to R120, 43_table_types.md R131 to
R139).
-/

namespace Sys2Proof.Machine

variable {T : Type}

/-! ### The radix test -/

/-- Settles O30: both directions are facts about `n &&& (n - 1)` at a power of two. -/
theorem powerOfTwoTestIsExact : Obligations.PowerOfTwoTestIsExact :=
  fun _ => ⟨exists_eq_two_pow_of_isPowerOfTwo, fun ⟨k, hk⟩ => hk ▸ isPowerOfTwo_two_pow k⟩

/-- The bit test at a natural number, read as an integer. -/
theorem exists_natCast_eq_two_pow_iff {n : Nat} : (∃ k : Nat, (n : Int) = 2 ^ k) ↔ isPowerOfTwo n = true := by
  rw [powerOfTwoTestIsExact n]
  exact_mod_cast Iff.rfl

/-- The radix test that both configurations make first fails exactly where the radix is no power of two (60_exceptions.md R151). -/
theorem radixTest_iff {R : Int} : (R < 1 || !isPowerOfTwo R.toNat) = true ↔ ¬∃ k : Nat, R = 2 ^ k := by
  rw [← not_iff_not, not_not]
  constructor
  · intro h
    obtain ⟨hR, hpow⟩ : 1 ≤ R ∧ isPowerOfTwo R.toNat = true := by simpa using h
    obtain ⟨n, rfl⟩ := Int.eq_ofNat_of_zero_le (Int.le_trans (by decide) hR)
    exact exists_natCast_eq_two_pow_iff.2 hpow
  · intro h
    simp [one_le_of_exists_two_pow h, isPowerOfTwo_toNat h]

/-! ### The faults of a network -/

section Network
variable {R L : Int}

/-- A radix that is no power of two is the first fault (60_exceptions.md R151). -/
theorem networkConfigFault_of_radix (hR : ¬∃ k : Nat, R = 2 ^ k) : networkConfigFault R L = some (.cfgRadixNotPow2 R) := by
  rw [networkConfigFault, if_pos (radixTest_iff.2 hR)]

/-- The length test fails exactly where the length is not positive or has no bank depth (60_exceptions.md R152). -/
theorem lengthTest_iff : (L < 1 || !(L % R == 0)) = true ↔ L < 1 ∨ ¬R ∣ L := by
  simp

/-- With a power of two the length is what may be wrong (60_exceptions.md R152). -/
theorem networkConfigFault_of_length (hR : ∃ k : Nat, R = 2 ^ k) (hL : L < 1 ∨ ¬R ∣ L) :
    networkConfigFault R L = some (.cfgLength L R) := by
  rw [networkConfigFault, if_neg (radixTest_iff.not_left.2 hR), if_pos (lengthTest_iff.2 hL)]

/-- Every other pair is accepted (60_exceptions.md R160). -/
theorem networkConfigFault_eq_none (hR : ∃ k : Nat, R = 2 ^ k) (hL : 1 ≤ L) (hdvd : R ∣ L) : networkConfigFault R L = none := by
  have hlength : ¬(L < 1 ∨ ¬R ∣ L) := by
    rintro (hlt | hnot)
    · omega
    · exact hnot hdvd
  rw [networkConfigFault, if_neg (radixTest_iff.not_left.2 hR), if_neg (lengthTest_iff.not.2 hlength)]

end Network

/-- The radix of an accepted configuration is a power of two (60_exceptions.md R151). -/
theorem exists_two_pow_of_configOk {c : Config} (h : configOk c) : ∃ k : Nat, (c.radix : Int) = 2 ^ k := by
  by_contra hR
  rw [configOk, configFault, networkConfigFault_of_radix hR] at h
  cases h

/-! ### The faults of TableTraits -/

/-- A radix that is no power of two is the first sizing fault (42_table_sizing.md R111). -/
theorem sizingFault_of_radix {i : TraitsInput} (hR : ¬∃ k : Nat, i.radix = 2 ^ k) :
    sizingFault i = some (.cfgRadixNotPow2 i.radix) := by
  rw [sizingFault, if_pos (radixTest_iff.2 hR)]

section Sizing
variable {i : TraitsInput} (hR : ∃ k : Nat, i.radix = 2 ^ k)
include hR

/-- A length below `1` is the second sizing fault (42_table_sizing.md R111). -/
theorem sizingFault_of_length (hL : i.length < 1) : sizingFault i = some (.cfgLength i.length i.radix) := by
  rw [sizingFault, if_neg (radixTest_iff.not_left.2 hR), if_pos hL]

/-- A negative forking factor is the third sizing fault (42_table_sizing.md R111). -/
theorem sizingFault_of_forkingFactor (hL : 1 ≤ i.length) (hff : i.forkingFactor < 0) :
    sizingFault i = some (.cfgNoSizingRule (.forkingFactor i.forkingFactor)) := by
  rw [sizingFault, if_neg (radixTest_iff.not_left.2 hR), if_neg (Int.not_lt.2 hL), if_pos hff]

end Sizing

/-- A format of less than one bit has no typing (43_table_types.md R131). -/
theorem typingFault_of_lt_one {W I : Int} {q : Rounding} {o : Overflow} (hW : W < 1) :
    typingFault (.fixed W I q o) = some (.cfgNoSizingRule (.wordLength W)) := if_pos hW

/-- Every other format has one (43_table_types.md R131). -/
theorem typingFault_of_one_le {W I : Int} {q : Rounding} {o : Overflow} (hW : 1 ≤ W) :
    typingFault (.fixed W I q o) = none := if_neg (Int.not_lt.2 hW)

/-- The typing fault is one of a word length below `1` (43_table_types.md R131, 60_exceptions.md R153). -/
theorem exists_wordLength_of_typingFault {rep : NumericRep} {f : FaultRecord} (h : typingFault rep = some f) :
    ∃ W, f = .cfgNoSizingRule (.wordLength W) ∧ W < 1 := by
  cases rep with
  | f32 => cases h
  | f64 => cases h
  | fixed W I q o =>
    obtain hW | hW := lt_or_ge W 1
    · rw [typingFault_of_lt_one hW] at h
      cases h
      exact ⟨W, rfl, hW⟩
    · rw [typingFault_of_one_le hW] at h
      cases h

/-- A representation each of whose formats has a bit has a typing. -/
theorem typingFault_eq_none {rep : NumericRep} (h : ∀ W I q o, rep = .fixed W I q o → 1 ≤ W) : typingFault rep = none := by
  cases rep with
  | f32 => rfl
  | f64 => rfl
  | fixed W I q o => exact typingFault_of_one_le (h W I q o rfl)

/-- A sizing fault leaves no descriptor (42_table_sizing.md R111). -/
theorem tableTraits_of_sizingFault {i : TraitsInput} {f : FaultRecord} (h : sizingFault i = some f) :
    tableTraits i = .error f := by
  rw [tableTraits, traitsFault, h]

/-- After the sizing faults the typing fault leaves none either (43_table_types.md R131, log entry 11). -/
theorem tableTraits_of_typingFault {i : TraitsInput} {f : FaultRecord} (hs : sizingFault i = none)
    (ht : typingFault i.rep = some f) : tableTraits i = .error f := by
  rw [tableTraits, traitsFault, hs, ht]

/-- Without a descriptor every request ends in the fault. -/
theorem answerRequest_of_tableTraits_error {i : TraitsInput} {f : FaultRecord} (h : tableTraits i = .error f)
    (request : TraitsRequest) : answerRequest i request = .error f := by
  rw [answerRequest, h]

/-- Settles O46: the tests are made in this order, and a format fails the last one exactly when it has no bit. -/
theorem sizingFaultsComeInOrder : Obligations.SizingFaultsComeInOrder := by
  intro i
  refine ⟨fun hR => tableTraits_of_sizingFault (sizingFault_of_radix hR),
    fun hR hL => tableTraits_of_sizingFault (sizingFault_of_length hR hL),
    fun hR hL hff => tableTraits_of_sizingFault (sizingFault_of_forkingFactor hR hL hff), fun hR hL hff => ?_⟩
  have hs : sizingFault i = none := sizingFault_eq_none hR hL hff
  refine ⟨fun W I q o hrep hW => ?_, fun hrep => ?_⟩
  · have herror := tableTraits_of_typingFault hs (hrep ▸ typingFault_of_lt_one hW)
    exact ⟨herror, answerRequest_of_tableTraits_error herror⟩
  · obtain ⟨d, hd, -⟩ := tableTraits_of_faults_none hs (typingFault_eq_none hrep)
    exact ⟨d, hd⟩

/-! ### The answers to the requests -/

/-- A length that is absent is the fault of the forking factor, and only such a length is one (42_table_sizing.md R116). -/
theorem answerOptional_eq_error_iff {i : TraitsInput} {length : Option Nat} {f : FaultRecord} :
    answerOptional i length = .error f ↔ length = none ∧ f = .cfgNoSizingRule (.forkingFactor i.forkingFactor) := by
  cases length <;> simp [answerOptional, eq_comm]

/-- The last-stage length is absent exactly without a positive forking factor (42_table_sizing.md R116). -/
theorem expTableLengthLastStage_eq_none_iff {R ff : Int} : expTableLengthLastStage R ff = none ↔ ff ≤ 0 := by
  simp [expTableLengthLastStage]

/-- Its extended counterpart is absent with it (42_table_sizing.md R117). -/
theorem extendedExpTableLengthLastStage_eq_none_iff {R ff : Int} {m : Nat} :
    extendedExpTableLengthLastStage R ff m = none ↔ ff ≤ 0 := by
  rw [extendedExpTableLengthLastStage, Option.map_eq_none_iff, expTableLengthLastStage_eq_none_iff]

/-- Settles O47: without a positive forking factor both last-stage lengths are absent, and every other request is answered by a field of
the descriptor. -/
theorem absentLastStageLengthFaults : Obligations.AbsentLastStageLengthFaults := by
  intro i hR hL hff ht
  obtain ⟨d, hd, hsizing⟩ := tableTraits_of_faults_none (sizingFault_eq_none hR hL hff.ge) ht
  have hlast : d.sizing.expTableLengthLastStage = none := hsizing ▸ expTableLengthLastStage_eq_none_iff.2 hff.le
  have hextended : d.sizing.extendedExpTableLengthLastStage = none :=
    hsizing ▸ extendedExpTableLengthLastStage_eq_none_iff.2 hff.le
  have hrecord : FaultRecord.cfgNoSizingRule (.forkingFactor 0) = .cfgNoSizingRule (.forkingFactor i.forkingFactor) := by rw [hff]
  simp only [answerRequest, hd]
  exact ⟨answerOptional_eq_error_iff.2 ⟨hlast, hrecord⟩, answerOptional_eq_error_iff.2 ⟨hextended, hrecord⟩,
    d, rfl, rfl, rfl, rfl, rfl, rfl, rfl, rfl, rfl⟩

/-- Once radix and length are accepted, a request can only fail for the forking factor or for the word length (60_exceptions.md R153). -/
theorem answerRequest_error {i : TraitsInput} {request : TraitsRequest} {f : FaultRecord} (hR : ∃ k : Nat, i.radix = 2 ^ k)
    (hL : 1 ≤ i.length) (h : answerRequest i request = .error f) :
    (f = .cfgNoSizingRule (.forkingFactor i.forkingFactor) ∧ i.forkingFactor ≤ 0) ∨
      typingFault i.rep = some f := by
  obtain hff | hff := lt_or_ge i.forkingFactor 0
  · rw [answerRequest_of_tableTraits_error (tableTraits_of_sizingFault (sizingFault_of_forkingFactor hR hL hff))] at h
    cases h
    exact .inl ⟨rfl, hff.le⟩
  · have hs : sizingFault i = none := sizingFault_eq_none hR hL hff
    cases ht : typingFault i.rep with
    | some g =>
      rw [answerRequest_of_tableTraits_error (tableTraits_of_typingFault hs ht)] at h
      cases h
      exact .inr rfl
    | none =>
      obtain ⟨d, hd, hsizing⟩ := tableTraits_of_faults_none hs ht
      rw [answerRequest, hd] at h
      cases request
      case expTableLengthLastStage =>
        obtain ⟨hnone, rfl⟩ := answerOptional_eq_error_iff.1 h
        rw [hsizing] at hnone
        exact .inl ⟨rfl, expTableLengthLastStage_eq_none_iff.1 hnone⟩
      case extendedExpTableLengthLastStage =>
        obtain ⟨hnone, rfl⟩ := answerOptional_eq_error_iff.1 h
        rw [hsizing] at hnone
        exact .inl ⟨rfl, extendedExpTableLengthLastStage_eq_none_iff.1 hnone⟩
      all_goals cases h

/-- What an accepted configuration gives TableTraits passes its tests of radix and length (60_exceptions.md R151, R152). -/
theorem answerRequest_error_of_configOk {c : Config} {request : TraitsRequest} {f : FaultRecord} (hc : configOk c)
    (h : answerRequest (traitsInputOf c) request = .error f) :
    (f = .cfgNoSizingRule (.forkingFactor c.forkingFactor) ∧ c.forkingFactor ≤ 0) ∨ typingFault c.rep = some f := by
  have hlength : 0 < c.length := (configOk_arith hc).2.1
  exact answerRequest_error (exists_two_pow_of_configOk hc) (Int.ofNat_le.2 hlength) h

/-- Settles O50: the answer changes nothing, and the only faults left to an accepted configuration are those of R153. -/
theorem consultingTableTraitsChangesNothing : Obligations.ConsultingTableTraitsChangesNothing := by
  intro s request hf hc
  rw [hostTableTraits, operate_running hf hc]
  obtain ⟨f, herror, hact⟩ | ⟨a, hok, hact⟩ := tableTraitsAct_cases request s
  · refine .inr ?_
    obtain ⟨rfl, -⟩ | ht := answerRequest_error_of_configOk hc herror
    · exact ⟨_, herror, hact⟩
    · obtain ⟨W, rfl, -⟩ := exists_wordLength_of_typingFault ht
      exact ⟨_, herror, hact⟩
  · exact .inl ⟨⟨a, hok⟩, hact⟩

/-! ### The types -/

/-- A descriptor has the three types of its representation, which has a typing (43_table_types.md R139). -/
theorem tableTraits_ok {i : TraitsInput} {d : TableDescriptor} (h : tableTraits i = .ok d) :
    typingFault i.rep = none ∧ d.elementType = elementTypeOf i.rep ∧
      d.truncatingCastType = truncatingCastTypeOf i.rep ∧
      d.roundingSaturatingCastType = roundingSaturatingCastTypeOf i.rep := by
  cases hs : sizingFault i with
  | some f => rw [tableTraits_of_sizingFault hs] at h; cases h
  | none =>
    cases ht : typingFault i.rep with
    | some f => rw [tableTraits_of_typingFault hs ht] at h; cases h
    | none =>
      rw [tableTraits, traitsFault, hs, ht] at h
      cases h
      exact ⟨rfl, rfl, rfl, rfl⟩

/-- Settles O51: the descriptor's types are those of its representation. -/
theorem descriptorHoldsTheTypes : Obligations.DescriptorHoldsTheTypes := by
  intro i d h
  obtain ⟨ht, helement, htrunc, hround⟩ := tableTraits_ok h
  rw [helement, htrunc, hround]
  refine ⟨fun hrep => ?_, fun hrep => ?_, fun W I q o hrep => ?_⟩
  · rw [hrep]
    exact ⟨rfl, rfl, rfl⟩
  · rw [hrep]
    exact ⟨rfl, rfl, rfl⟩
  · rw [hrep] at ht ⊢
    exact ⟨one_le_of_typing ht, rfl, rfl, rfl⟩

section Capabilities
variable (N : Numerics) {rep : NumericRep}

/-- A representation with a typing has both capabilities (43_table_types.md R134). -/
theorem casts_of_typed (h : typingFault rep = none) :
    truncatingCast N rep = .ok (truncatingCastTypeOf rep, N.trunc rep) ∧
      roundingSaturatingCast N rep = .ok (roundingSaturatingCastTypeOf rep, N.rndsat rep) := by
  rw [truncatingCast, roundingSaturatingCast, h]
  exact ⟨rfl, rfl⟩

/-- A representation without one has neither (43_table_types.md R131). -/
theorem casts_of_typingFault {f : FaultRecord} (h : typingFault rep = some f) :
    truncatingCast N rep = .error f ∧ roundingSaturatingCast N rep = .error f := by
  rw [truncatingCast, roundingSaturatingCast, h]
  exact ⟨rfl, rfl⟩

end Capabilities

/-- Settles O60: a format of at least one bit has a typing, and the default `Numerics` of a record is the reference one. -/
theorem fixedCapabilitiesAreTheReferenceCasts : Obligations.FixedCapabilitiesAreTheReferenceCasts :=
  ⟨fun N _ _ _ _ hW => casts_of_typed N (typingFault_of_one_le (Int.ofNat_le.2 hW)),
    fun _ _ _ _ _ hW => casts_of_typed .reference (typingFault_of_one_le (Int.ofNat_le.2 hW)),
    fun N _ _ _ _ hW => casts_of_typingFault N (typingFault_of_lt_one hW)⟩

/-! ### The clamp and the twiddle lengths -/

/-- Settles O48: the clamp is the library's maximum with `MIN_TABLE_LEN`. -/
theorem extendedLengthIsAClamp : Obligations.ExtendedLengthIsAClamp :=
  fun m x _ => ⟨rfl, le_max_right x m, le_max_left x m, max_eq_left_iff, max_eq_left (le_max_right x m),
    fun hxy => max_le_max_right m hxy⟩

/-- The twiddle length does not fall as the length grows (42_table_sizing.md R112). -/
theorem twiddleTableLength_mono {L L' : Int} (h : L ≤ L') : twiddleTableLength L ≤ twiddleTableLength L' :=
  Int.toNat_le_toNat (Int.ediv_le_ediv (by decide) h)

section Twiddle
variable {L : Int} {m : Nat} (hL : 1 ≤ L)
include hL

/-- At or above the floor the extended twiddle length is `floor(L/4)` (42_table_sizing.md R119). -/
theorem extendedTwiddleTableLength_of_le (h : (m : Int) ≤ L / 4) : (extendedTwiddleTableLength L m : Int) = L / 4 := by
  have hcast := twiddleTableLength_cast (show 0 ≤ L by omega)
  rw [extendedTwiddleTableLength, extendedLength, max_eq_left (by omega), hcast]

/-- At or below the floor it is the floor (42_table_sizing.md R119). -/
theorem extendedTwiddleTableLength_of_ge (h : L / 4 ≤ (m : Int)) : extendedTwiddleTableLength L m = m := by
  have hcast := twiddleTableLength_cast (show 0 ≤ L by omega)
  exact max_eq_right (by omega)

end Twiddle

/-- Settles O49: below and above the floor by the maximum, at `m = 16` the two meet at `L = 64`. -/
theorem twiddleLengthHasItsFloor : Obligations.TwiddleLengthHasItsFloor :=
  fun m _ _ hL _ => ⟨le_max_right _ m,
    fun h => ⟨twiddleTableLength_cast (by omega), extendedTwiddleTableLength_of_le hL h⟩,
    extendedTwiddleTableLength_of_ge hL, fun h => max_le_max_right m (twiddleTableLength_mono h),
    fun h => extendedTwiddleTableLength_of_ge hL (by omega),
    fun h => extendedTwiddleTableLength_of_le hL (by omega)⟩

end Sys2Proof.Machine
end

section
/-!
PROOFS. A fault ends the run and changes nothing else (60_exceptions.md section 2), every fault that is recorded describes what is wrong
in the state that holds it (R150 to R157, R167), and with that the invariant at reset and over every step.
-/

namespace Sys2Proof.Machine

variable {T : Type}

/-! ### The end of a faulted run -/

/-- Settles O29: the codes are the definition's own. -/
theorem faultCodesAreTheTable : Obligations.FaultCodesAreTheTable :=
  ⟨fun _ => rfl, fun _ _ => rfl, fun _ => rfl, fun _ => rfl, fun _ => rfl, fun _ _ => rfl, fun _ _ => rfl, fun _ => rfl⟩

/-- Every step passes the guard, with the head of the run's list gone (60_exceptions.md R160, R161). -/
theorem step_eq_operate (s : State) : ∃ act, step s = operate act (setInputs s.inputs.tail s) := by
  cases hi : s.inputs with
  | nil =>
    refine ⟨.next, ?_⟩
    rw [step_nil hi, hostIdle, List.tail_nil, ← hi]
    rfl
  | cons e rest => exact ⟨eventAct e, by rw [step_cons hi, performEvent_exec_eq, List.tail_cons]⟩

/-- Settles O27: every command, every item and every step passes the guard, which lets nothing act once the marker is set. -/
theorem faultIsFinal : Obligations.FaultIsFinal := by
  intro s f hf
  refine ⟨fun i => ?_, fun e => ?_, ?_⟩
  · obtain ⟨a, b⟩ := i
    rw [exec_permute_eq_operate, operate_halted hf]
  · rw [performEvent_exec_eq, operate_halted hf]
  · obtain ⟨act, hstep⟩ := step_eq_operate s
    exact hstep.trans (operate_halted hf)

/-- Settles O31: the two tests of a network in their order; the guard takes the configuration's fault before anything acts. -/
theorem misconfiguredNetworkFaults : Obligations.MisconfiguredNetworkFaults := by
  refine ⟨fun R L => networkConfigFault_of_radix, fun R L => networkConfigFault_of_length,
    fun R L => networkConfigFault_eq_none, fun s f hf hc => ⟨?_, fun i => ?_⟩⟩
  · obtain ⟨act, hstep⟩ := step_eq_operate s
    exact hstep.trans (operate_misconfigured hf hc)
  · obtain ⟨a, b⟩ := i
    exact operate_misconfigured hf hc

/-- An item of the run that leaves the marker set took a fault and did nothing else. -/
theorem eventAct_of_fault {e : Event T} {s t : State T} {f : FaultRecord} (h : eventAct e s = .next t) (hs : s.fault = none)
    (ht : t.fault = some f) : t = takeFault f s := by
  obtain ⟨g, rfl⟩ | ⟨v, i, rfl, -⟩ | ⟨l, o, v, -, -, -, rfl⟩ | ⟨-, rfl⟩ | ⟨-, rfl⟩ | ⟨-, rfl⟩ | ⟨request, -, rfl⟩ :=
    eventAct_next h
  case inl =>
    cases ht
    rfl
  all_goals cases hs.symm.trans ht

/-- Settles O28: a fault is the configuration's or that of the item at hand, and taking it sets the marker alone. -/
theorem faultEntryHasNoOtherEffect : Obligations.FaultEntryHasNoOtherEffect := by
  intro s t f h ht
  obtain ⟨hs, ⟨g, -, rfl⟩ | ⟨-, -, rfl⟩ | ⟨-, e, rest, hi, hact⟩⟩ := step_next h
  · cases ht
    rfl
  · cases hs.symm.trans ht
  · rw [eventAct_of_fault hact hs ht, hi]
    rfl

/-! ### Faults are genuine -/

section Genuine
variable {s : State T} {f : FaultRecord}

/-- Whether a record is genuine depends on the configuration, the banks and the phase alone. -/
theorem recordGenuine_congr {t : State T} (hc : t.config = s.config) (hb : t.banks = s.banks) (hp : t.phase = s.phase)
    (h : recordGenuine s f) : recordGenuine t f := by
  obtain ⟨config, banks, phase, fault, out, inputs⟩ := t
  subst hc hb hp
  exact h

/-- The fault of a misconfigured network is genuine (60_exceptions.md R151, R152). -/
theorem recordGenuine_of_configFault (h : configFault s.config = some f) : recordGenuine s f := by
  rw [configFault] at h
  by_cases hR : ∃ k : Nat, (s.config.radix : Int) = 2 ^ k
  · by_cases hL : (s.config.length : Int) < 1 ∨ ¬(s.config.radix : Int) ∣ s.config.length
    · rw [networkConfigFault_of_length hR hL] at h
      cases h
      refine ⟨rfl, rfl, exists_natCast_eq_two_pow_iff.1 hR, hL.imp (fun hlt => by omega) fun hnot hmod => ?_⟩
      exact hnot (Int.natCast_dvd_natCast.2 (Nat.dvd_of_mod_eq_zero hmod))
    · obtain ⟨hpos, hdvd⟩ := not_or.1 hL
      rw [networkConfigFault_eq_none hR (Int.not_lt.1 hpos) (not_not.1 hdvd)] at h
      cases h
  · rw [networkConfigFault_of_radix hR] at h
    cases h
    exact ⟨rfl, Bool.eq_false_of_not_eq_true (mt exists_natCast_eq_two_pow_iff.2 hR)⟩

/-- The fault of one of the first four tests of `PERMUTE` is genuine (40_permute.md R82). -/
theorem recordGenuine_of_checkCommand {a b : Int} (h : checkCommand s a b = some f) : recordGenuine s f := by
  rw [checkCommand_eq] at h
  split at h
  next hp =>
    cases h
    cases hfill : s.phase with
    | fill => exact hfill
    | drain => exact absurd hfill hp
  next hp =>
    have hdrain : s.phase = .drain := not_not.1 hp
    split at h
    next hs =>
      cases h
      exact ⟨hdrain, by omega⟩
    next =>
      split at h
      next ht =>
        cases h
        exact ⟨hdrain, by omega⟩
      next ht =>
        split at h
        next ho =>
          cases h
          exact ⟨hdrain, by omega⟩
        next => cases h

/-- The fault of the reads of a valid command is genuine (40_permute.md R82 test 5, 60_exceptions.md R156). -/
theorem recordGenuine_of_ruleOutput {a b : Int} (hR : 0 < s.config.radix) (hp : s.phase = .drain)
    (hv : validCommand s.config a b) (h : ruleOutput s a.toNat b.toNat = .error f) : recordGenuine s f := by
  obtain ⟨before, r, after, hsplit, -, hnot, rfl⟩ := gather_error_iff.1 h
  have hr : r < s.config.radix := List.mem_range.1 (hsplit ▸ List.mem_append_right before List.mem_cons_self)
  obtain ⟨-, -, ht, ht'⟩ := hv
  refine ⟨hp, sourceLane_lt hR, ?_, hnot⟩
  rw [sourceOffset]
  omega

/-- Every fault of a `PERMUTE` is genuine. -/
theorem recordGenuine_of_permuteAct {a b : Int} {t : State T} (hc : configOk s.config) (hs : s.fault = none)
    (h : permuteAct a b s = .next t) (ht : t.fault = some f) : recordGenuine s f := by
  obtain ⟨g, hcheck, hact⟩ | ⟨hcheck, g, hrule, hact⟩ | ⟨-, v, -, hact⟩ := permuteAct_cases a b s <;> rw [hact] at h <;> cases h
  · cases ht
    exact recordGenuine_of_checkCommand hcheck
  · cases ht
    obtain ⟨hp, hv⟩ := (checkCommand_none_iff s a b).1 hcheck
    exact recordGenuine_of_ruleOutput (configOk_arith hc).1 hp hv hrule
  · cases hs.symm.trans ht

/-- Every fault of a request to TableTraits is genuine (60_exceptions.md R153). -/
theorem recordGenuine_of_answerRequest {request : TraitsRequest} (hc : configOk s.config)
    (h : answerRequest (traitsInputOf s.config) request = .error f) : recordGenuine s f := by
  obtain ⟨rfl, hff⟩ | ht := answerRequest_error_of_configOk hc h
  · exact ⟨rfl, hff⟩
  · obtain ⟨W, rfl, hW⟩ := exists_wordLength_of_typingFault ht
    exact ⟨hW, ht⟩

/-- Every fault an item of the run takes is genuine. -/
theorem recordGenuine_of_eventAct {e : Event T} {t : State T} (hc : configOk s.config) (hs : s.fault = none)
    (h : eventAct e s = .next t) (ht : t.fault = some f) : recordGenuine s f := by
  cases e with
  | word nbits w =>
    simp only [eventAct, wordAct] at h
    split at h
    · exact recordGenuine_of_permuteAct hc hs h ht
    · cases h
  | command i =>
    obtain ⟨a, b⟩ := i
    exact recordGenuine_of_permuteAct hc hs h ht
  | laneWrite l o v =>
    rw [eventAct] at h
    obtain ⟨-, hp, hact⟩ | ⟨-, -, hact⟩ | ⟨-, hact⟩ := laneWriteAct_cases l o v s <;> rw [hact] at h <;> cases h
    · cases ht
      exact hp
    · cases hs.symm.trans ht
  | tableTraits request =>
    rw [eventAct] at h
    obtain ⟨g, herror, hact⟩ | ⟨a, -, hact⟩ := tableTraitsAct_cases request s <;> rw [hact] at h <;> cases h
    · cases ht
      exact recordGenuine_of_answerRequest hc herror
    · cases hs.symm.trans ht
  | drain =>
    rw [eventAct] at h
    obtain ⟨-, -, hact⟩ | ⟨-, -, hact⟩ | ⟨-, hact⟩ := drainAct_cases s <;> rw [hact] at h <;> cases h
    cases hs.symm.trans ht
  | handOff =>
    cases h
    cases hs.symm.trans ht
  | release =>
    cases h
    cases hs.symm.trans ht

end Genuine

/-! ### The invariant -/

/-- Settles O34: reset stores no element, emits no vector and clears the marker. -/
theorem resetMeetsTheInvariant : Obligations.ResetMeetsTheInvariant :=
  fun _ => ⟨List.Pairwise.nil, nofun, nofun, nofun⟩

section Invariant
variable {s t : State T}

/-- Where configuration, banks and `OUT` are as before, only the marker is left to look at. -/
theorem Inv.of_unchanged (h : Inv s) (hc : t.config = s.config) (hb : t.banks = s.banks) (ho : t.out = s.out)
    (hm : ∀ f, t.fault = some f → recordGenuine t f) : Inv t where
  banksCanonical := hb ▸ h.banksCanonical
  banksInRange := by rw [hb, hc]; exact h.banksInRange
  vectorsFull := by rw [ho, hc]; exact h.vectorsFull
  markerGenuine := hm

/-- Appending a vector of `R` samples keeps the invariant while the marker is clear (40_permute.md R86). -/
theorem Inv.emitVector (h : Inv s) (hf : s.fault = none) {v : List T} (hv : v.length = s.config.radix) :
    Inv (emitVector v s) where
  banksCanonical := h.banksCanonical
  banksInRange := h.banksInRange
  vectorsFull w hw := by
    obtain hw | hw := List.mem_append.1 hw
    · exact h.vectorsFull w hw
    · exact List.mem_singleton.1 hw ▸ hv
  markerGenuine f ht := by cases hf.symm.trans ht

/-- A write inside the banks keeps the invariant while the marker is clear (20_memory.md R40, R45). -/
theorem Inv.storeElement (h : Inv s) (hf : s.fault = none) {l o : Int} (ha : addressInRange s.config l o) (v : T) :
    Inv (storeElement l.toNat o.toNat v s) where
  banksCanonical := writeElement_wf h.banksCanonical _ _ v
  banksInRange e he := by
    obtain rfl | he := mem_writeElement he
    · obtain ⟨hl, hl', ho, ho'⟩ := ha
      exact ⟨by simp only [storeElement_config]; omega, by simp only [storeElement_config]; omega⟩
    · exact h.banksInRange e he
  vectorsFull := h.vectorsFull
  markerGenuine f ht := by cases hf.symm.trans ht

/-- Every item of a run keeps the invariant: a vector and a written element meet it, and a fault is genuine. -/
theorem Inv.eventAct {e : Event T} (h : Inv s) (hc : configOk s.config) (hf : s.fault = none)
    (hact : eventAct e s = .next t) : Inv t := by
  have hgenuine : ∀ f, t.fault = some f → recordGenuine t f := fun f ht => by
    have hs : recordGenuine s f := recordGenuine_of_eventAct hc hf hact ht
    rw [eventAct_of_fault hact hf ht]
    exact recordGenuine_congr rfl rfl rfl hs
  obtain ⟨f, rfl⟩ | ⟨v, i, rfl, hv, -⟩ | ⟨l, o, v, -, -, ha, rfl⟩ | ⟨-, rfl⟩ | ⟨-, rfl⟩ | ⟨-, rfl⟩ | ⟨request, -, rfl⟩ :=
    eventAct_next hact
  case inr.inl => exact h.emitVector hf hv
  case inr.inr.inl => exact h.storeElement hf ha v
  all_goals exact h.of_unchanged rfl rfl rfl hgenuine

/-- Every step of a machine of any sample type keeps the invariant. -/
theorem Inv.stepAt (h : Inv s) (hstep : stepAt s = .next t) : Inv t := by
  obtain ⟨hf, ⟨f, hc, rfl⟩ | ⟨-, -, rfl⟩ | ⟨hc, e, rest, -, hact⟩⟩ := stepAt_next hstep
  · refine h.of_unchanged rfl rfl rfl fun g hg => ?_
    cases hg
    exact recordGenuine_of_configFault hc
  · exact h
  · have hrest : Inv (setInputs rest s) := h.of_unchanged rfl rfl rfl fun f ht => by cases hf.symm.trans ht
    exact hrest.eventAct hc hf hact

end Invariant

/-- Settles O35: the step of the host's machine is that of the sample type `Sample`. -/
theorem stepKeepsTheInvariant : Obligations.StepKeepsTheInvariant :=
  fun s _ h hstep => h.stepAt (step_eq_stepAt s ▸ hstep)

end Sys2Proof.Machine
end

section
/-!
PROOFS. The command word at every index width (30_encoding.md R61 to R64): the round trips, the sub-pattern of a rule against the stage
index a word decodes to, and the word that a step runs (R66).
-/

namespace Sys2Proof

/-! ### The sub-pattern of a rule -/

section Pattern
variable {n s : Nat} (w : BitVec (2 * n))

/-- Masking with the upper `n` bits clears the lower field (30_encoding.md R64). -/
theorem toNat_and_ruleMaskAt : (w &&& ruleMaskAt n).toNat = w.toNat / 2 ^ n * 2 ^ n := by
  have hmask : (ruleMaskAt n).toNat = (2 ^ n - 1) * 2 ^ n := by
    rw [ruleMaskAt, BitVec.toNat_ofNat, two_mul, pow_add]
    exact Nat.mod_eq_of_lt (Nat.mul_lt_mul_of_pos_right (Nat.sub_one_lt (Nat.two_pow_pos n).ne') (Nat.two_pow_pos n))
  refine Nat.eq_of_testBit_eq fun i => ?_
  rw [BitVec.toNat_and, hmask, Nat.testBit_and, Nat.testBit_mul_two_pow, Nat.testBit_mul_two_pow, Nat.testBit_two_pow_sub_one,
    Nat.testBit_div_two_pow]
  obtain hlow | hhigh := Nat.lt_or_ge i n
  · simp [Nat.not_le.2 hlow]
  · rw [Nat.sub_add_cancel hhigh]
    cases hbit : w.toNat.testBit i with
    | false => simp
    | true =>
      have hi : i < 2 * n := BitVec.lt_of_getLsbD hbit
      have hdiff : i - n < n := by omega
      simp [hhigh, hdiff]

/-- The sub-pattern of rule `s` looks at the upper field as a number (30_encoding.md R64). -/
theorem matchesRuleAt_iff : matchesRuleAt n s w = true ↔ (stageField n w).toNat = s := by
  rw [matchesRuleAt, beq_iff_eq, toNat_and_ruleMaskAt, ruleMatchAt, toNat_stageField]
  exact Nat.mul_left_inj (Nat.two_pow_pos n).ne'

/-- A word decodes to a command with stage index `i` exactly when its upper field is `i` as two's complement (30_encoding.md R62). -/
theorem exists_decodeAt_eq_iff {i : Int} : (∃ t, decodeAt n w = .permute i t) ↔ (stageField n w).toInt = i := by
  simp [decodeAt]

end Pattern

/-- The numbers of an `n`-bit field below `2^(n-1)` stand for themselves, the others for negative integers (30_encoding.md R62). -/
theorem toInt_eq_of_one_le {n : Nat} (hn : 1 ≤ n) (b : BitVec n) :
    b.toInt = if b.toNat < 2 ^ (n - 1) then (b.toNat : Int) else (b.toNat : Int) - 2 ^ n := by
  have hpow : 2 * 2 ^ (n - 1) = 2 ^ n := mul_pow_sub_one (Nat.ne_of_gt hn) 2
  rw [BitVec.toInt_eq_toNat_cond]
  push_cast
  split <;> split <;> omega

end Sys2Proof

namespace Sys2Proof.Machine

/-! ### The encoder, the decoder and the patterns -/

/-- Settles O2: a command that fits is packed and read back, and a word is nothing but its two fields. -/
theorem everyIndexWidthRoundTrips : Obligations.EveryIndexWidthRoundTrips := by
  intro n hn
  refine ⟨fun i h => ?_, fun i h => encodeAt_of_not_wellFormedAt (Bool.eq_false_iff.1 h), encodeAt_decodeAt⟩
  obtain ⟨s, t⟩ := i
  exact ⟨_, encodeAt_of_wellFormedAt h, decodeAt_packFields_ofInt hn h⟩

/-- Settles O5: the words of the table are evaluated. -/
theorem specWordsDecode : Obligations.SpecWordsDecode := by
  unfold Obligations.SpecWordsDecode
  decide

/-- Settles O4: the pattern compares the upper field as a number, the decoder reads it as two's complement. -/
theorem rulePatternSelectsItsStageIndex : Obligations.RulePatternSelectsItsStageIndex := by
  refine ⟨fun n s w hn => ?_, fun s w => ?_⟩
  · have hlt := (stageField n w).isLt
    have hpow : 2 * 2 ^ (n - 1) = 2 ^ n := mul_pow_sub_one (Nat.ne_of_gt hn) 2
    have hcast : (2 : Int) ^ n = (2 ^ n : Nat) := (Nat.cast_pow 2 n).symm
    have hint := toInt_eq_of_one_le hn (stageField n w)
    rw [exists_decodeAt_eq_iff, exists_decodeAt_eq_iff, Bool.eq_false_iff, ne_eq, matchesRuleAt_iff, hint]
    refine ⟨fun hs => ?_, fun hs hs' => ?_, fun hs => ?_⟩
    · split <;> omega
    · split <;> omega
    · omega
  · exact beq_iff_eq

/-! ### The step runs what is supplied -/

/-- A word of the configured length is the command it decodes to (30_encoding.md R62, R66). -/
theorem decodeSupplied_word {n : Nat} (w : BitVec (2 * n)) : decodeSupplied n (2 * n) w = .ok (decodeAt n w) := by
  rw [decodeSupplied, if_pos rfl, BitVec.setWidth_eq]

/-- The step runs the word at the head of the list (30_encoding.md R66). -/
theorem step_word {s : State} {n : Nat} (hn : s.config.indexWidth = n) {w : BitVec (2 * n)} {rest : List Event}
    (hi : s.inputs = .word _ w :: rest) : step s = exec (decodeAt n w) (setInputs rest s) := by
  subst hn
  rw [step_cons hi, performEvent, performWord, setInputs_config, decodeSupplied_word]

/-- A word that is placed is what the very next step runs, on the state before (log entry 3). -/
theorem step_withFetchWord {s : State} {n : Nat} (hn : s.config.indexWidth = n) (w : BitVec (2 * n)) :
    step (s.withFetchWord (2 * n) w.toNat) = exec (decodeAt n w) s := by
  subst hn
  rw [withFetchWord_word, step_word rfl rfl]
  rfl

/-- A word of another length is refused on a running, well-configured network (log entry 10). -/
theorem step_of_not_word {s : State} {nbits : Nat} {w : BitVec nbits} {rest : List Event} (hi : s.inputs = .word nbits w :: rest)
    (hne : nbits ≠ 2 * s.config.indexWidth) (hf : s.fault = none) (hc : configOk s.config) :
    step s = .refused (.notACommandWord nbits) := by
  rw [step_cons hi, performEvent, performWord, setInputs_config, decodeSupplied, if_neg hne]
  exact operate_running (s := setInputs rest s) hf hc

/-- Settles O6: a supplied word is decoded when it has the length of one and refused otherwise; a command is run as it is. -/
theorem stepRunsTheSuppliedCommand : Obligations.StepRunsTheSuppliedCommand :=
  ⟨fun _ _ _ hi => step_word rfl hi, fun _ _ _ hi => step_cons hi, fun _ w => step_withFetchWord rfl w,
    fun _ w hn => step_withFetchWord (n := 32) hn w, fun _ _ _ _ hi hne hf hc => step_of_not_word hi hne hf hc⟩

end Sys2Proof.Machine
end

section
/-!
PROOFS. Who may change what: the banks only by the producer's `LaneWrite`, the phase only by `HandOff` and `Release`, the configuration
by nobody (10_state.md R23 to R26, 20_memory.md R40 to R50).
-/

namespace Sys2Proof.Machine

variable {T : Type}

/-! ### The producer's steps on a running network -/

/-- Settles O20: the address decides alone whether the write is a step, whatever the phase. -/
theorem outOfRangeLaneWriteHasNoStep : Obligations.OutOfRangeLaneWriteHasNoStep := by
  intro s l o v hf hc
  by_cases ha : addressInRange s.config l o
  · have hnext : ∃ t, hostLaneWrite l o v s = .next t := by
      cases hp : s.phase with
      | fill => exact ⟨_, hostLaneWrite_of_fill v hf hc ha hp⟩
      | drain => exact ⟨_, hostLaneWrite_of_drain v hf hc ha hp⟩
    refine ⟨iff_of_false ?_ (not_not.2 ha), iff_of_true hnext ha⟩
    obtain ⟨t, ht⟩ := hnext
    intro hstuck
    cases hstuck.symm.trans ht
  · have hstuck := hostLaneWrite_of_not_addressInRange v hf hc ha
    refine ⟨iff_of_true hstuck ha, iff_of_false ?_ ha⟩
    rintro ⟨t, ht⟩
    cases hstuck.symm.trans ht

/-- Settles O21: both pass the guard and set the phase. -/
theorem handOffAndReleaseChangeThePhaseAlone : Obligations.HandOffAndReleaseChangeThePhaseAlone :=
  fun _ hf hc => ⟨operate_running hf hc, operate_running hf hc⟩

/-! ### What one step leaves -/

/-- An item of the run leaves the banks, or is a `LaneWrite` in phase `FILL` inside them (10_state.md R23, 20_memory.md R45). -/
theorem eventAct_banks {e : Event T} {s t : State T} (h : eventAct e s = .next t) :
    t.banks = s.banks ∨
      ∃ l o v, e = .laneWrite l o v ∧ s.phase = .fill ∧ addressInRange s.config l o ∧
        t.banks = writeElement s.banks l.toNat o.toNat v := by
  obtain ⟨f, rfl⟩ | ⟨v, i, rfl, -⟩ | ⟨l, o, v, he, hp, ha, rfl⟩ | ⟨-, rfl⟩ | ⟨-, rfl⟩ | ⟨-, rfl⟩ | ⟨request, -, rfl⟩ :=
    eventAct_next h
  case inr.inr.inl => exact .inr ⟨l, o, v, he, hp, ha, rfl⟩
  all_goals exact .inl rfl

/-- A step leaves the banks, or its head item is such a `LaneWrite`. -/
theorem step_banks {s t : State} (h : step s = .next t) :
    t.banks = s.banks ∨
      ∃ l o v rest, s.inputs = .laneWrite l o v :: rest ∧ s.phase = .fill ∧ addressInRange s.config l o ∧
        t.banks = writeElement s.banks l.toNat o.toNat v := by
  obtain ⟨-, ⟨f, -, rfl⟩ | ⟨-, -, rfl⟩ | ⟨-, e, rest, hi, hact⟩⟩ := step_next h
  · exact .inl rfl
  · exact .inl rfl
  · obtain hsame | ⟨l, o, v, rfl, hp, ha, hbanks⟩ := eventAct_banks hact
    · exact .inl hsame
    · exact .inr ⟨l, o, v, rest, hi, hp, ha, hbanks⟩

/-- Settles O22: the other case of `step_banks`. -/
theorem onlyLaneWriteChangesTheBanks : Obligations.OnlyLaneWriteChangesTheBanks :=
  fun _ _ h hne => (step_banks h).resolve_left hne

/-- An item of the run leaves the phase, or is the host step to the phase it leaves (10_state.md R25). -/
theorem eventAct_phase {e : Event T} {s t : State T} (h : eventAct e s = .next t) :
    t.phase = s.phase ∨ (e = .handOff ∧ t.phase = .drain) ∨ (e = .release ∧ t.phase = .fill) := by
  obtain ⟨f, rfl⟩ | ⟨v, i, rfl, -⟩ | ⟨l, o, v, -, -, -, rfl⟩ | ⟨he, rfl⟩ | ⟨he, rfl⟩ | ⟨-, rfl⟩ | ⟨request, -, rfl⟩ :=
    eventAct_next h
  case inr.inr.inr.inl => exact .inr (.inl ⟨he, rfl⟩)
  case inr.inr.inr.inr.inl => exact .inr (.inr ⟨he, rfl⟩)
  all_goals exact .inl rfl

/-- Settles O23: the configuration by `stemsFrom_of_step`, the phase by the head item. -/
theorem phaseChangesOnlyAtHandOffAndRelease : Obligations.PhaseChangesOnlyAtHandOffAndRelease := by
  intro s t h
  refine ⟨(stemsFrom_of_step h).config, fun hne => ?_⟩
  obtain ⟨-, ⟨f, -, rfl⟩ | ⟨-, -, rfl⟩ | ⟨-, e, rest, hi, hact⟩⟩ := step_next h
  · exact absurd rfl hne
  · exact absurd rfl hne
  · obtain hsame | ⟨rfl, hp⟩ | ⟨rfl, hp⟩ := eventAct_phase hact
    · exact absurd hsame hne
    · exact .inl ⟨rest, hi, hp⟩
    · exact .inr ⟨rest, hi, hp⟩

/-! ### What an element keeps -/

/-- A write never clears a populated mark (10_state.md R24). -/
theorem populated_writeElement {m : Memory T} {l o : Nat} (l' o' : Nat) (v : T) (h : populated m l o = true) :
    populated (writeElement m l' o' v) l o = true := by
  by_cases hat : l' = l ∧ o' = o
  · obtain ⟨rfl, rfl⟩ := hat
    exact populated_writeElement_same ..
  · rwa [populated, read_write_other m v hat]

/-- Settles O25: reset stores no element, and the only change of the banks is a write. -/
theorem populatedMarksAreNeverCleared : Obligations.PopulatedMarksAreNeverCleared := by
  refine ⟨fun c l o => populated_nil l o, fun s t h l o hpop => ?_⟩
  obtain hsame | ⟨l', o', v, rest, -, -, -, hbanks⟩ := step_banks h
  · rwa [hsame]
  · rw [hbanks]
    exact populated_writeElement _ _ v hpop

/-- A step whose list has no write to an element leaves it as it reads (20_memory.md R44, R45). -/
theorem readElement_of_step {s t : State} {l o : Nat} (h : step s = .next t) (hno : ∀ w, Event.laneWrite l o w ∉ s.inputs) :
    readElement t.banks l o = readElement s.banks l o := by
  obtain hsame | ⟨l', o', v, rest, hi, -, ha, hbanks⟩ := step_banks h
  · rw [hsame]
  · rw [hbanks]
    refine read_write_other_toNat ha s.banks v ?_
    rintro ⟨rfl, rfl⟩
    exact hno v (hi ▸ List.mem_cons_self)

/-- Settles O26: by induction on the steps; no step adds a host step on the banks to the list (`StemsFrom`). -/
theorem elementKeepsItsLastWrittenValue : Obligations.ElementKeepsItsLastWrittenValue := by
  intro k s t l o v hread hno hrun
  induction k generalizing s with
  | zero =>
    cases hrun
    exact hread
  | succ k ih =>
    obtain ⟨u, hstep, hrun⟩ := runSteps_succ_next hrun
    refine ih u ?_ (fun w hw => hno w ((stemsFrom_of_step hstep).hostSteps _ hw rfl)) hrun
    rw [readElement_of_step hstep hno, hread]

end Sys2Proof.Machine
end

section
/-!
PROOFS. What `PERMUTE` depends on and what it leaves (40_permute.md R80 to R89): its one outcome, the short transform, the frame, the
diagonal it reads; the cyclic shift of a rule and the tests of the dispatch chain (R88, R90); the first command after reset
(70_reset_and_hazards.md R171).
-/

namespace Sys2Proof.Machine

variable {T : Type}

/-! ### The outcome of a command -/

/-- The reads of a rule succeed exactly with all its source elements populated (40_permute.md R80). -/
theorem exists_ruleOutput_ok_iff {st : State T} {s t : Nat} : (∃ v, ruleOutput st s t = .ok v) ↔ SourcesPopulated st s t := by
  refine ⟨fun ⟨v, hv⟩ r hr => ?_, ruleOutput_of_sourcesPopulated⟩
  have hlane : r < v.length := ruleOutput_length hv ▸ hr
  rw [populated, ← ruleOutput_lane hv hr, List.getElem?_eq_getElem hlane, Option.isSome_some]

/-- Settles O9: the outcomes are a failed test, a failed read, and the vector; each decides one of the three conditions. -/
theorem permuteSucceedsExactlyWhenItsChecksPass : Obligations.PermuteSucceedsExactlyWhenItsChecksPass := by
  intro st s t hf hc
  rw [exec_permute_eq_operate, operate_running hf hc]
  obtain ⟨f, hcheck, hact⟩ | ⟨-, f, hrule, hact⟩ | ⟨hcheck, v, hrule, hact⟩ := permuteAct_cases s t st
  · refine ⟨_, hact, iff_of_false nofun fun ⟨hp, hv, _⟩ => ?_⟩
    cases hcheck.symm.trans ((checkCommand_none_iff st s t).2 ⟨hp, hv⟩)
  · refine ⟨_, hact, iff_of_false nofun fun ⟨_, _, hpop⟩ => ?_⟩
    obtain ⟨v, hok⟩ := exists_ruleOutput_ok_iff.2 hpop
    cases hrule.symm.trans hok
  · obtain ⟨hp, hv⟩ := (checkCommand_none_iff st s t).1 hcheck
    exact ⟨_, hact, iff_of_true hf ⟨hp, hv, exists_ruleOutput_ok_iff.1 ⟨v, hrule⟩⟩⟩

/-- With less than `R^2` samples the banks are less than `R` deep (40_permute.md R81). -/
theorem depth_lt_radix {c : Config} (hL : c.length < c.radix * c.radix) : depthOf c < c.radix :=
  Nat.div_lt_of_lt_mul hL

/-- An accepted configuration has a bank depth (10_state.md R22). -/
theorem depth_pos {c : Config} (hc : configOk c) : 0 < depthOf c := by
  obtain ⟨hR, hL, hdvd⟩ := configOk_arith hc
  exact Nat.div_pos (Nat.le_of_dvd hL hdvd) hR

/-- Settles O10: a valid command needs `R` offsets below the depth; test 4 is the one that finds too few of them. -/
theorem shortTransformHasNoValidCommand : Obligations.ShortTransformHasNoValidCommand := by
  intro st hf hc hL
  have hdepth : depthOf st.config < st.config.radix := depth_lt_radix hL
  have hpos : 0 < depthOf st.config := depth_pos hc
  refine ⟨fun s t => ?_, fun hp s hs => ?_⟩
  · have hv : ¬validCommand st.config s t := by
      rintro ⟨-, -, ht, ht'⟩
      omega
    refine ⟨hv, ?_⟩
    rw [exec_permute_eq_operate, operate_running hf hc]
    exact permuteAct_of_not_validCommand hv
  · have hcheck := checkCommand_of_sourceOffset (s := s) (t := 0) hp (by omega) (by omega) (by omega)
    rw [Int.sub_zero] at hcheck
    exact exec_permute_of_checkCommand hf hc hcheck

/-- Settles O11: a command ends in a fault that sets the marker alone or in a vector that `OUT` gains alone. -/
theorem permuteFrame : Obligations.PermuteFrame := by
  intro st u s t h
  obtain ⟨-, ⟨f, -, rfl⟩ | ⟨-, hact⟩⟩ := operate_next h
  · exact ⟨rfl, rfl, rfl, rfl, fun _ _ => rfl, .inr ⟨rfl, f, rfl⟩⟩
  · obtain ⟨f, rfl⟩ | ⟨v, rfl, hv⟩ := permuteAct_next hact
    · exact ⟨rfl, rfl, rfl, rfl, fun _ _ => rfl, .inr ⟨rfl, f, rfl⟩⟩
    · exact ⟨rfl, rfl, rfl, rfl, fun _ _ => rfl, .inl ⟨rfl, v, hv, rfl⟩⟩

/-! ### What a command depends on -/

section Congruence
variable {st st' : State T} (hc : st.config = st'.config)
include hc

/-- The reads of some lanes depend on their source elements alone (40_permute.md R85). -/
theorem gather_congr {j t : Nat} {lanes : List Nat}
    (hread : ∀ r ∈ lanes, readElement st.banks (sourceLane st.config.radix j r) (sourceOffset t r) =
      readElement st'.banks (sourceLane st.config.radix j r) (sourceOffset t r)) :
    gather st j t lanes = gather st' j t lanes := by
  induction lanes with
  | nil => rfl
  | cons r lanes ih =>
    obtain ⟨hr, hlanes⟩ := List.forall_mem_cons.1 hread
    rw [gather, gather, laneRead, laneRead, ih hlanes, ← hc, hr]

/-- A rule depends on its source elements alone (40_permute.md R85). -/
theorem ruleOutput_congr {j t : Nat}
    (hread : ∀ r < st.config.radix, readElement st.banks (sourceLane st.config.radix j r) (sourceOffset t r) =
      readElement st'.banks (sourceLane st.config.radix j r) (sourceOffset t r)) :
    ruleOutput st j t = ruleOutput st' j t := by
  rw [ruleOutput, ruleOutput, ← hc]
  exact gather_congr hc fun r hr => hread r (List.mem_range.1 hr)

/-- The first four tests depend on configuration and phase alone (40_permute.md R82). -/
theorem checkCommand_congr (hp : st.phase = st'.phase) (s t : Int) : checkCommand st s t = checkCommand st' s t := by
  rw [checkCommand_eq, checkCommand_eq, hc, hp]

/-- What a command does, a fault or a vector, depends on configuration, phase and its source elements alone. -/
theorem permuteAct_congr {s t : Int} (hp : st.phase = st'.phase)
    (hread : ∀ r < st.config.radix, readElement st.banks (sourceLane st.config.radix s.toNat r) (sourceOffset t.toNat r) =
      readElement st'.banks (sourceLane st.config.radix s.toNat r) (sourceOffset t.toNat r)) :
    (∃ f, permuteAct s t st = .next (takeFault f st) ∧ permuteAct s t st' = .next (takeFault f st')) ∨
      ∃ v, permuteAct s t st = .next (emitVector v st) ∧ permuteAct s t st' = .next (emitVector v st') := by
  rw [permuteAct, permuteAct, ← checkCommand_congr hc hp, ← ruleOutput_congr hc hread]
  cases checkCommand st s t with
  | some f => exact .inl ⟨f, rfl, rfl⟩
  | none =>
    cases ruleOutput st s.toNat t.toNat with
    | error f => exact .inl ⟨f, rfl, rfl⟩
    | ok v => exact .inr ⟨v, rfl, rfl⟩

end Congruence

/-- Settles O12: both states take the same fault or append the same vector. -/
theorem permuteSeesOnlyItsDiagonal : Obligations.PermuteSeesOnlyItsDiagonal := by
  intro st st' u u' s t hc hp hf hf' hread h h'
  rw [exec_permute_eq_operate] at h h'
  cases hfault : configFault st.config with
  | some f =>
    rw [operate_misconfigured hf hfault] at h
    rw [operate_misconfigured hf' (hc ▸ hfault)] at h'
    cases h
    cases h'
    exact ⟨rfl, [], by simp, by simp⟩
  | none =>
    rw [operate_running hf hfault] at h
    rw [operate_running hf' (hc ▸ hfault)] at h'
    obtain ⟨f, hact, hact'⟩ | ⟨v, hact, hact'⟩ := permuteAct_congr hc hp hread
    · cases hact.symm.trans h
      cases hact'.symm.trans h'
      exact ⟨rfl, [], by simp, by simp⟩
    · cases hact.symm.trans h
      cases hact'.symm.trans h'
      exact ⟨hf.trans hf'.symm, [v], rfl, rfl⟩

/-! ### The first command after reset -/

/-- Settles O33: reset is in phase `FILL`, where test 1 fails; with the phase set the first read finds an element never written. -/
theorem firstCommandAfterResetFaults : Obligations.FirstCommandAfterResetFaults := by
  intro c hc
  refine ⟨fun s t => exec_permute_of_checkCommand (resetOf_fault c) hc (checkCommand_of_fill (resetOf_phase c)),
    fun s t hs ht => ?_⟩
  have hv : validCommand c s t := by
    simp only [validCommand]
    omega
  have hrule := ruleOutput_of_first_unpopulated (st := { State.resetOf c with phase := .drain }) (s := s) (t := t) (r := 0)
    (Nat.zero_lt_of_lt hs) (by simp) (populated_nil _ _)
  have hlane : sourceLane c.radix s 0 = s := Nat.mod_eq_of_lt hs
  have hoffset : sourceOffset t 0 = t := sourceOffset_eq_time_add t 0
  rw [resetOf_config, hlane, hoffset] at hrule
  exact exec_permute_of_ruleOutput_error (st := { State.resetOf c with phase := .drain }) rfl hc rfl hv hrule

/-! ### The dispatch chain and the cyclic shift -/

/-- From stage `n + 1` down a stage index above `0` is found when its own stage is reached, `0` after all `n` tests (40_permute.md
R90). -/
theorem chainTests_natCast {n s : Nat} (h : s ≤ n) : chainTests n s = if s = 0 then n else n + 1 - s := by
  induction n with
  | zero =>
    obtain rfl := Nat.le_zero.1 h
    rfl
  | succ n ih =>
    rw [chainTests]
    split
    · split <;> omega
    · rw [ih (by omega)]
      split <;> omega

/-- The chain has one test a stage (40_permute.md R90, D8). -/
theorem chainTests_le (n : Nat) (s : Int) : chainTests n s ≤ n := by
  induction n with
  | zero => exact le_rfl
  | succ n ih =>
    rw [chainTests]
    split <;> omega

/-- Settles O17: both counts by induction on the stages. -/
theorem chainMakesBoundedlyManyTests : Obligations.ChainMakesBoundedlyManyTests := by
  intro R hR
  refine ⟨fun s hs => ?_, chainTests_le _⟩
  rw [chainTests_natCast (by omega), Nat.sub_add_cancel hR]

section Shift
variable {R s : Nat}

/-- The banks in the order of the output lanes: from `s` to the last, then from `0` (40_permute.md R88). -/
theorem map_sourceLane_range (hs : s < R) :
    (List.range R).map (sourceLane R s) = (List.range (R - s)).map (s + ·) ++ List.range s := by
  obtain ⟨d, rfl⟩ := Nat.exists_eq_add_of_lt hs
  have hrange : List.range (s + d + 1) = List.range (d + 1) ++ (List.range s).map (d + 1 + ·) := by
    rw [← List.range_add]
    congr 1
    omega
  rw [hrange, List.map_append, List.map_map, show s + d + 1 - s = d + 1 by omega]
  congr 1
  · refine List.map_congr_left fun r hr => ?_
    have hr : r < d + 1 := List.mem_range.1 hr
    rw [sourceLane_cases hs (by omega), if_pos (by omega)]
  · refine (List.map_congr_left fun r hr => ?_).trans (List.map_id _)
    have hr : r < s := List.mem_range.1 hr
    rw [Function.comp_apply, sourceLane_cases hs (by omega), if_neg (by omega), id]
    omega

/-- Rules compose by adding their numbers (40_permute.md R88). -/
theorem sourceLane_sourceLane (R s s' r : Nat) : sourceLane R s' (sourceLane R s r) = sourceLane R ((s + s') % R) r := by
  simp only [sourceLane, Nat.add_mod_mod, Nat.mod_add_mod]
  congr 1
  omega

end Shift

/-- Settles O18: the order of the banks by splitting the lanes where the sum reaches `R`; the four vectors are evaluated. -/
theorem ruleIsACyclicShift : Obligations.RuleIsACyclicShift := by
  refine ⟨fun R s => map_sourceLane_range, fun R r hr => ?_, fun R s s' r _ _ _ => sourceLane_sourceLane R s s' r,
    by decide, by decide, by decide, by decide⟩
  rw [sourceLane, Nat.zero_add, Nat.mod_eq_of_lt hr]

end Sys2Proof.Machine
end

section
/-!
PROOFS. No operation looks inside a sample (00_scope.md R8, 40_permute.md R85): one lemma per operation, that relabelling every sample
before it or after it is the same.
-/

namespace Sys2Proof.Machine

variable {T U : Type} (f : T → U)

/-! ### The banks -/

/-- The banks with every sample replaced by its image under `f`. -/
def relabelMemory (m : Memory T) : Memory U := m.map fun e => ⟨e.lane, e.offset, f e.value⟩

theorem relabelMemory_cons (e : Element T) (m : Memory T) :
    relabelMemory f (e :: m) = ⟨e.lane, e.offset, f e.value⟩ :: relabelMemory f m := rfl

/-- A read answers the image of what it answered (20_memory.md R44). -/
theorem readElement_relabelMemory (m : Memory T) (l o : Nat) :
    readElement (relabelMemory f m) l o = (readElement m l o).map f := by
  induction m with
  | nil => rfl
  | cons e m ih =>
    rw [relabelMemory_cons, readElement_cons, readElement_cons, ih]
    split <;> rfl

/-- A write of an image is the image of the write (20_memory.md R45). -/
theorem writeElement_relabelMemory (m : Memory T) (l o : Nat) (v : T) :
    writeElement (relabelMemory f m) l o (f v) = relabelMemory f (writeElement m l o v) := by
  induction m with
  | nil => rfl
  | cons e m ih =>
    rw [relabelMemory_cons, writeElement, writeElement, ih]
    split
    · rfl
    · split <;> rfl

/-! ### The updates of a state -/

section Fields
variable (s : State T)
@[simp] theorem relabelState_config : (relabelState f s).config = s.config := rfl
@[simp] theorem relabelState_banks : (relabelState f s).banks = relabelMemory f s.banks := rfl
@[simp] theorem relabelState_phase : (relabelState f s).phase = s.phase := rfl
@[simp] theorem relabelState_fault : (relabelState f s).fault = s.fault := rfl
@[simp] theorem relabelState_inputs : (relabelState f s).inputs = s.inputs.map (relabelEvent f) := rfl
end Fields

theorem emitVector_relabelState (v : List T) (s : State T) :
    emitVector (v.map f) (relabelState f s) = relabelState f (emitVector v s) := by
  simp [emitVector, relabelState]

theorem storeElement_relabelState (l o : Nat) (v : T) (s : State T) :
    storeElement l o (f v) (relabelState f s) = relabelState f (storeElement l o v s) := by
  rw [storeElement, relabelState_banks, writeElement_relabelMemory]
  rfl

theorem setInputs_relabelState (es : List (Event T)) (s : State T) :
    setInputs (es.map (relabelEvent f)) (relabelState f s) = relabelState f (setInputs es s) := rfl

/-! ### The reads and the operations -/

/-- The reads of a rule answer the images, or the same fault (40_permute.md R85). -/
theorem gather_relabelState (s : State T) (j t : Nat) (lanes : List Nat) :
    gather (relabelState f s) j t lanes = (gather s j t lanes).map (List.map f) := by
  induction lanes with
  | nil => rfl
  | cons r lanes ih =>
    rw [gather, gather, laneRead, laneRead, ih, relabelState_banks, relabelState_config, readElement_relabelMemory]
    cases readElement s.banks (sourceLane s.config.radix j r) (sourceOffset t r) with
    | none => rfl
    | some v => cases gather s j t lanes <;> rfl

theorem permuteAct_relabelState (i t : Int) (s : State T) :
    permuteAct i t (relabelState f s) = relabelOutcome f (permuteAct i t s) := by
  have hrule : ruleOutput (relabelState f s) i.toNat t.toNat = (ruleOutput s i.toNat t.toNat).map (List.map f) :=
    gather_relabelState f s _ _ _
  have hcheck : checkCommand (relabelState f s) i t = checkCommand s i t := rfl
  rw [permuteAct, permuteAct, hcheck, hrule]
  cases checkCommand s i t with
  | some g => rfl
  | none =>
    cases ruleOutput s i.toNat t.toNat with
    | error g => rfl
    | ok v => exact congrArg Host.Outcome.next (emitVector_relabelState f v s)

theorem laneWriteAct_relabelState (l o : Int) (v : T) (s : State T) :
    laneWriteAct l o (f v) (relabelState f s) = relabelOutcome f (laneWriteAct l o v s) := by
  rw [laneWriteAct, laneWriteAct, relabelState_config, relabelState_phase]
  split
  · cases s.phase with
    | drain => rfl
    | fill => exact congrArg Host.Outcome.next (storeElement_relabelState f _ _ v s)
  · rfl

/-- The commands of a drain hold no sample (41_drain.md R103). -/
theorem map_relabelEvent_drainEvents (c : Config) : (drainEvents c).map (relabelEvent f) = drainEvents c :=
  List.map_map

theorem drainAct_relabelState (s : State T) : drainAct (relabelState f s) = relabelOutcome f (drainAct s) := by
  rw [drainAct, drainAct, relabelState_config, relabelState_inputs, ← map_relabelEvent_drainEvents f, ← List.map_append]
  split
  · split <;> rfl
  · rfl

theorem tableTraitsAct_relabelState (request : TraitsRequest) (s : State T) :
    tableTraitsAct request (relabelState f s) = relabelOutcome f (tableTraitsAct request s) := by
  rw [tableTraitsAct, tableTraitsAct, relabelState_config]
  split <;> rfl

/-! ### The guard, the items of a run and the step -/

/-- The guard looks at no sample (60_exceptions.md R160, R161). -/
theorem operate_relabelState {act : State T → Host.Outcome (State T) Fault Refusal}
    {act' : State U → Host.Outcome (State U) Fault Refusal} {s : State T}
    (h : act' (relabelState f s) = relabelOutcome f (act s)) :
    operate act' (relabelState f s) = relabelOutcome f (operate act s) := by
  rw [operate, operate, relabelState_fault, relabelState_config, h]
  cases s.fault with
  | some g => rfl
  | none => cases configFault s.config <;> rfl

theorem execAt_relabelState (i : Instr) (s : State T) : execAt i (relabelState f s) = relabelOutcome f (execAt i s) := by
  obtain ⟨a, b⟩ := i
  exact operate_relabelState f (permuteAct_relabelState f a b s)

theorem wordAct_relabelState (nbits : Nat) (w : BitVec nbits) (s : State T) :
    wordAct nbits w (relabelState f s) = relabelOutcome f (wordAct nbits w s) := by
  rw [wordAct, wordAct, relabelState_config]
  split
  · exact permuteAct_relabelState f _ _ s
  · rfl

theorem eventAct_relabelState (e : Event T) (s : State T) :
    eventAct (relabelEvent f e) (relabelState f s) = relabelOutcome f (eventAct e s) := by
  cases e with
  | word nbits w => exact wordAct_relabelState f nbits w s
  | command i =>
    obtain ⟨a, b⟩ := i
    exact permuteAct_relabelState f a b s
  | laneWrite l o v => exact laneWriteAct_relabelState f l o v s
  | handOff => rfl
  | release => rfl
  | drain => exact drainAct_relabelState f s
  | tableTraits request => exact tableTraitsAct_relabelState f request s

theorem stepAt_relabelState (s : State T) : stepAt (relabelState f s) = relabelOutcome f (stepAt s) := by
  cases hi : s.inputs with
  | nil =>
    rw [stepAt_nil hi, stepAt_nil (by rw [relabelState_inputs, hi, List.map_nil])]
    exact operate_relabelState f rfl
  | cons e rest =>
    rw [stepAt_cons hi, stepAt_cons (by rw [relabelState_inputs, hi, List.map_cons]), performEvent_eq, performEvent_eq,
      setInputs_relabelState]
    exact operate_relabelState f (eventAct_relabelState f e _)

/-- The machine behind the host's interface is the one of the default record (log entry 2). -/
theorem core_eq_machine : Sys2Proof.core = (Parameters.ofConfig .cfgA).machine := by
  rw [core, show step = stepAt from funext step_eq_stepAt]
  rfl

/-- Settles O13: the relabelling of an instruction and of a step, and the two machines at `Sample`. -/
theorem stepCommutesWithRelabellingSamples : Obligations.StepCommutesWithRelabellingSamples :=
  ⟨fun _ _ f => execAt_relabelState f, fun _ _ f => stepAt_relabelState f, fun i s => congrFun (congrFun exec_eq_execAt i) s,
    step_eq_stepAt, core_eq_machine⟩

end Sys2Proof.Machine
end

section
/-!
PROOFS. The rest of `41_drain.md`: when a DRAIN is refused (R101, R108), the drive sequence and the drive set (R102, R103), the covers of
the banks (R102, R104, R108), and the layout of the default order (R105).
-/

namespace Sys2Proof.Machine

variable {T : Type}

/-! ### When a DRAIN is refused -/

/-- The shape condition as a divisibility (41_drain.md R101). -/
theorem drainable_iff {c : Config} : drainable c ↔ c.radix * c.radix ∣ c.length := Nat.dvd_iff_mod_eq_zero.symm

/-- The shape condition as one on the depth (41_drain.md R101). -/
theorem sq_radix_dvd_length_iff {c : Config} (hc : configOk c) : c.radix * c.radix ∣ c.length ↔ c.radix ∣ depthOf c := by
  rw [← radix_mul_depth hc]
  exact Nat.mul_dvd_mul_iff_left (configOk_arith hc).1

/-- The default order is legal (41_drain.md R108). -/
theorem driveOrderLegal_of_defaultDrive {c : Config} (h : DefaultDrive c) : driveOrderLegal c = true := by
  rw [driveOrderLegal, h]

/-- A listed order is legal as a rearrangement of the drive set (41_drain.md R108). -/
theorem driveOrderLegal_iff_of_listed {c : Config} {cmds : List (Nat × Nat)} (h : c.driveOrder = .listed cmds) :
    driveOrderLegal c = true ↔ cmds.Perm (driveSet c) := by
  rw [driveOrderLegal, h]
  exact List.isPerm_iff

/-- The three outcomes of a DRAIN exclude each other and are decided by shape and order (41_drain.md R100, R101, R108). -/
theorem drainAct_outcome_iff (s : State T) :
    (drainAct s = .refused .drainShape ↔ ¬drainable s.config) ∧
      (drainAct s = .refused .driveOrderNotADriveSet ↔ drainable s.config ∧ driveOrderLegal s.config = false) ∧
      ((∃ t, drainAct s = .next t) ↔ drainable s.config ∧ driveOrderLegal s.config = true) := by
  obtain ⟨hd, hl, hact⟩ | ⟨hd, hl, hact⟩ | ⟨hd, hact⟩ := drainAct_cases s <;> rw [hact]
  · exact ⟨iff_of_false nofun (not_not.2 hd), iff_of_false nofun fun h => Bool.false_ne_true (h.2.symm.trans hl),
      iff_of_true ⟨_, rfl⟩ ⟨hd, hl⟩⟩
  · exact ⟨iff_of_false nofun (not_not.2 hd), iff_of_true rfl ⟨hd, hl⟩,
      iff_of_false (fun ⟨_, h⟩ => nomatch h) fun h => Bool.false_ne_true (hl.symm.trans h.2)⟩
  · exact ⟨iff_of_true rfl hd, iff_of_false nofun fun h => hd h.1, iff_of_false (fun ⟨_, h⟩ => nomatch h) fun h => hd h.1⟩

/-- Settles O36: the outcomes of a DRAIN, with the shape read as a divisibility. -/
theorem drainIsRefusedWithoutItsShape : Obligations.DrainIsRefusedWithoutItsShape := by
  intro s hf hc
  obtain ⟨hshape, horder, hnext⟩ := drainAct_outcome_iff s
  rw [hostDrain, operate_running hf hc, ← drainable_iff]
  exact ⟨hshape, horder, hnext, driveOrderLegal_of_defaultDrive, fun _ => driveOrderLegal_iff_of_listed,
    drainable_iff.trans (sq_radix_dvd_length_iff hc)⟩

/-! ### The drive sequence -/

theorem driveSequence_length (c : Config) : (driveSequence c).length = depthOf c := by simp [driveSequence]

section Blocks
variable {R r : Nat}

/-- Command `r` of block `k` (41_drain.md R103). -/
theorem driveCommand_block (hr : r < R) (k : Nat) : driveCommand R (k * R + r) = (r, k * R) := by
  obtain ⟨hdiv, hmod⟩ := (eq_blockStart_add_iff hr).1 rfl
  rw [driveCommand, hdiv, hmod]

/-- The first `b` blocks of the default order (41_drain.md R103). -/
theorem map_driveCommand_range (R b : Nat) :
    (List.range (R * b)).map (driveCommand R) = (List.range b).flatMap fun k => (List.range R).map fun i => (i, k * R) := by
  induction b with
  | zero => rfl
  | succ b ih =>
    rw [Nat.mul_succ, List.range_add, List.map_append, ih, List.range_succ, List.flatMap_append, List.flatMap_singleton,
      List.map_map]
    congr 1
    refine List.map_congr_left fun r hr => ?_
    rw [Function.comp_apply, Nat.mul_comm R b, driveCommand_block (List.mem_range.1 hr)]

end Blocks

/-- The time offset never decreases along the drive sequence (41_drain.md R103). -/
theorem driveSequence_pairwise (c : Config) : (driveSequence c).Pairwise fun p q => p.2 ≤ q.2 :=
  List.pairwise_map.2 (List.pairwise_lt_range.imp fun hlt => Nat.mul_le_mul_right c.radix (Nat.div_le_div_right hlt.le))

/-- The drive sequence lists no command twice: block and position give the command's number back (41_drain.md R102). -/
theorem driveSequence_nodup (c : Config) : (driveSequence c).Nodup := by
  refine List.Nodup.map (fun i j hij => ?_) List.nodup_range
  obtain ⟨hmod, hblock⟩ := Prod.mk.inj hij
  rw [← Nat.div_add_mod' i c.radix, ← Nat.div_add_mod' j c.radix, hmod, hblock]

/-- The step of a DRAIN supplies the commands of the configured order (41_drain.md R100). -/
theorem step_drain {s : State} {rest : List Event} (hf : s.fault = none) (hc : Drainable s.config)
    (hl : driveOrderLegal s.config = true) (hi : s.inputs = .drain :: rest) :
    step s = .next (setInputs (drainEvents s.config ++ rest) s) := by
  rw [step_cons hi, performEvent_exec_eq]
  refine (operate_running (s := setInputs rest s) hf hc.1).trans ?_
  rw [eventAct, drainAct, setInputs_config, if_pos hc.2, if_pos hl]
  rfl

/-- Settles O37: the supplied commands are the default drive sequence, which is a sequence of blocks. -/
theorem drainSuppliesTheDriveSequence : Obligations.DrainSuppliesTheDriveSequence := by
  intro s rest hf hc hdefault hi
  have hstep := step_drain hf hc (driveOrderLegal_of_defaultDrive hdefault) hi
  rw [drainEvents, drainCommands, hdefault] at hstep
  refine ⟨driveSequence s.config, hstep, driveSequence_length _, fun i hi => ?_, ?_, driveSequence_pairwise _⟩
  · rw [driveSequence_getElem?, if_pos (show i < depthOf s.config from hi), driveCommand]
  · rw [driveSequence, depth_of_drainable (configOk_arith hc.1).1 hc.2, map_driveCommand_range]

/-! ### The drive set -/

/-- A command of the drive set by its block (41_drain.md R102). -/
theorem mem_driveSet_iff {c : Config} {s t : Nat} :
    (s, t) ∈ driveSet c ↔ s < c.radix ∧ ∃ k < c.length / (c.radix * c.radix), t = k * c.radix := by
  simp [driveSet, eq_comm]

section DriveSet
variable {c : Config} (hc : Drainable c)
include hc

/-- A command of the drive set by its time offset (41_drain.md R102). -/
theorem mem_driveSet_iff_dvd {s t : Nat} : (s, t) ∈ driveSet c ↔ s < c.radix ∧ c.radix ∣ t ∧ t < depthOf c := by
  have hR : 0 < c.radix := (configOk_arith hc.1).1
  rw [mem_driveSet_iff, depth_of_drainable hR hc.2]
  refine and_congr_right fun _ => ⟨?_, ?_⟩
  · rintro ⟨k, hk, rfl⟩
    exact ⟨Nat.dvd_mul_left .., Nat.mul_comm k c.radix ▸ Nat.mul_lt_mul_of_pos_left hk hR⟩
  · rintro ⟨⟨k, rfl⟩, hlt⟩
    exact ⟨k, Nat.lt_of_mul_lt_mul_left hlt, Nat.mul_comm ..⟩

/-- The default drive sequence has the same commands (41_drain.md R102, R103). -/
theorem mem_driveSequence_iff {s t : Nat} : (s, t) ∈ driveSequence c ↔ s < c.radix ∧ c.radix ∣ t ∧ t < depthOf c := by
  have hR : 0 < c.radix := (configOk_arith hc.1).1
  have hD : c.radix ∣ depthOf c := radix_dvd_depth hc
  simp only [driveSequence, List.mem_map, List.mem_range]
  constructor
  · rintro ⟨i, hi, hdrive⟩
    obtain ⟨rfl, rfl⟩ := Prod.mk.inj hdrive
    exact ⟨Nat.mod_lt i hR, Nat.dvd_mul_left .., blockStart_add_lt hD hi hR⟩
  · rintro ⟨hs, ⟨k, rfl⟩, hlt⟩
    refine ⟨k * c.radix + s, ?_, ?_⟩
    · have := blockStart_add_lt hD hlt hs
      rwa [Nat.mul_div_cancel_left k hR] at this
    · rw [driveCommand_block hs, Nat.mul_comm]

/-- The drive set lists no command twice (41_drain.md R102). -/
theorem driveSet_nodup : (driveSet c).Nodup := by
  have hR : 0 < c.radix := (configOk_arith hc.1).1
  refine List.nodup_flatMap.2 ⟨fun s _ => ?_, ?_⟩
  · refine List.Nodup.map (fun k k' h => ?_) List.nodup_range
    exact Nat.eq_of_mul_eq_mul_right hR (Prod.mk.inj h).2
  · refine List.nodup_range.imp fun hne p hp hp' => hne ?_
    obtain ⟨k, -, rfl⟩ := List.mem_map.1 hp
    obtain ⟨k', -, h⟩ := List.mem_map.1 hp'
    exact (Prod.mk.inj h).1.symm

/-- The drive sequence is a rearrangement of the drive set (41_drain.md R102). -/
theorem driveSequence_perm : (driveSequence c).Perm (driveSet c) :=
  (List.perm_ext_iff_of_nodup (driveSequence_nodup c) (driveSet_nodup hc)).2 fun _ =>
    (mem_driveSequence_iff hc).trans (mem_driveSet_iff_dvd hc).symm

/-- Every command of the drive set is valid (40_permute.md R81, 41_drain.md R102). -/
theorem validCommand_of_mem_driveSet {p : Nat × Nat} (hp : p ∈ driveSet c) : validCommand c p.1 p.2 := by
  obtain ⟨hs, ⟨k, hk⟩, hlt⟩ := (mem_driveSet_iff_dvd hc).1 hp
  have hblock := blockStart_add_lt (radix_dvd_depth hc) hlt (Nat.sub_one_lt (Nat.ne_zero_of_lt hs))
  rw [hk, Nat.mul_div_cancel_left k (Nat.zero_lt_of_lt hs), Nat.mul_comm, ← hk] at hblock
  simp only [validCommand]
  omega

end DriveSet

/-- Settles O38: sequence and set have the same members and no repetition, so they are rearrangements and of one length. -/
theorem driveSequenceEnumeratesTheDriveSet : Obligations.DriveSequenceEnumeratesTheDriveSet :=
  fun c hc => ⟨(driveSequence_perm hc).length_eq.symm.trans (driveSequence_length c), driveSet_nodup hc,
    fun _ _ => mem_driveSet_iff, fun _ hp => validCommand_of_mem_driveSet hc hp, driveSequence_perm hc⟩

/-! ### The covers of the banks -/

/-- In a list that a predicate holds in once, two members it holds of are the same. -/
theorem eq_of_countP_eq_one {α : Type} {P : α → Bool} {as : List α} (h : as.countP P = 1) {a b : α} (ha : a ∈ as)
    (hPa : P a = true) (hb : b ∈ as) (hPb : P b = true) : a = b := by
  rw [List.countP_eq_length_filter, List.length_eq_one_iff] at h
  obtain ⟨x, hx⟩ := h
  have hmem : ∀ y ∈ as, P y = true → y = x := fun y hy hPy => List.mem_singleton.1 (hx ▸ List.mem_filter.2 ⟨hy, hPy⟩)
  rw [hmem a ha hPa, hmem b hb hPb]

/-- Command `i` of the default order reads element `(l, o)` exactly when it is the one R104 names. -/
theorem readsElement_driveCommand_iff {c : Config} {i l o : Nat} (hl : l < c.radix) :
    readsElement c (driveCommand c.radix i) l o ↔ i = o / c.radix * c.radix + outputLane c.radix (o % c.radix) l := by
  constructor
  · rintro ⟨r, hr, hreads⟩
    exact ((driveCommand_reads_iff hr hl).1 hreads).1
  · intro hi
    have hpos : o % c.radix < c.radix := Nat.mod_lt o (Nat.zero_lt_of_lt hl)
    exact ⟨o % c.radix, hpos, (driveCommand_reads_iff hpos hl).2 ⟨hi, rfl⟩⟩

/-- The default drive sequence reads every element once (41_drain.md R104). -/
theorem countP_driveSequence {c : Config} (hc : Drainable c) {l o : Nat} (hl : l < c.radix) (ho : o < depthOf c) :
    (driveSequence c).countP (fun p => decide (readsElement c p l o)) = 1 := by
  have hpos : o % c.radix < c.radix := Nat.mod_lt o (Nat.zero_lt_of_lt hl)
  have hmem := List.mem_range.2 (blockStart_add_lt (radix_dvd_depth hc) ho (outputLane_lt hpos hl))
  rw [driveSequence, List.countP_map, ← List.count_eq_one_of_mem List.nodup_range hmem, List.count]
  refine List.countP_congr fun i _ => ?_
  rw [Function.comp_apply, decide_eq_true_iff, beq_iff_eq]
  exact readsElement_driveCommand_iff hl

/-- A legal order is a rearrangement of the default one (41_drain.md R108). -/
theorem drainCommands_perm {c : Config} (hc : Drainable c) (hl : driveOrderLegal c = true) :
    (drainCommands c).Perm (driveSequence c) := by
  cases horder : c.driveOrder with
  | blockMajor => rw [drainCommands, horder]
  | listed cmds =>
    rw [drainCommands, horder]
    exact ((driveOrderLegal_iff_of_listed horder).1 hl).trans (driveSequence_perm hc).symm

/-- A legal order lists the commands of the drive set (41_drain.md R108). -/
theorem mem_driveSet_of_mem_drainCommands {c : Config} (hc : Drainable c) (hl : driveOrderLegal c = true) {p : Nat × Nat}
    (h : p ∈ drainCommands c) : p ∈ driveSet c :=
  ((drainCommands_perm hc hl).trans (driveSequence_perm hc)).mem_iff.1 h

/-- Settles O41: how often an element is read does not depend on the order. -/
theorem everyDriveOrderCoversOnce : Obligations.EveryDriveOrderCoversOnce := by
  intro c hc hl
  have hperm := drainCommands_perm hc hl
  refine ⟨hperm.length_eq.trans (driveSequence_length c), fun l hl o ho => ?_⟩
  rw [hperm.countP_eq, countP_driveSequence hc hl ho]

section ExactCover
variable {c : Config} {cmds : List (Nat × Nat)} (hc : configOk c) (hvalid : ∀ p ∈ cmds, validCommand c p.1 p.2)
  (hcover : ∀ l < c.radix, ∀ o < depthOf c, cmds.countP (fun p => decide (readsElement c p l o)) = 1)

/-- On output lane `0` a command reads the element its operands name (40_permute.md R83, R84). -/
theorem readsElement_self {s t : Nat} (hs : s < c.radix) : readsElement c (s, t) s t :=
  ⟨0, Nat.zero_lt_of_lt hs, Nat.mod_eq_of_lt hs, Nat.zero_add t⟩

include hvalid in
/-- What reads an element is the command that names it, or one of an earlier time offset in the `R` columns up to it. -/
theorem eq_or_lt_of_readsElement {p : Nat × Nat} {l o : Nat} (hp : p ∈ cmds) (h : readsElement c p l o) :
    p = (l, o) ∨ ∃ r, 0 < r ∧ r < c.radix ∧ p.2 + r = o := by
  obtain ⟨r, hr, hlane, hoffset⟩ := h
  obtain ⟨hs, hs', -⟩ := hvalid p hp
  rw [sourceOffset_eq_time_add] at hoffset
  obtain rfl | hpos := Nat.eq_zero_or_pos r
  · have hstage : sourceLane c.radix p.1 0 = p.1 := Nat.mod_eq_of_lt (by omega)
    exact .inl (Prod.ext (hstage.symm.trans hlane) hoffset)
  · exact .inr ⟨r, hpos, hr, hoffset⟩

include hvalid hcover in
/-- Column after column, an exact cover has all the commands of a time offset that is a multiple of `R`, and no other: at a multiple the
columns before it are read by earlier blocks, and anywhere else an earlier block reads the column already. -/
theorem mem_cover_iff_dvd {s t : Nat} (hs : s < c.radix) (ht : t < depthOf c) : (s, t) ∈ cmds ↔ c.radix ∣ t := by
  induction t using Nat.strong_induction_on generalizing s with
  | _ t ih =>
    have hR : 0 < c.radix := Nat.zero_lt_of_lt hs
    constructor
    · intro hmem
      by_contra hnot
      have hblock : t / c.radix * c.radix < t :=
        lt_of_le_of_ne (Nat.div_mul_le_self t c.radix) fun h => hnot (h ▸ Nat.dvd_mul_left ..)
      have hlane : outputLane c.radix (t % c.radix) s < c.radix := outputLane_lt (Nat.mod_lt t hR) hs
      have hearlier := (ih _ hblock hlane (hblock.trans ht)).2 (Nat.dvd_mul_left ..)
      have hreads : readsElement c (outputLane c.radix (t % c.radix) s, t / c.radix * c.radix) s t := by
        rw [← driveCommand_block hlane]
        exact (readsElement_driveCommand_iff hs).2 rfl
      have hsame := eq_of_countP_eq_one (hcover s hs t ht) hmem (decide_eq_true (readsElement_self hs)) hearlier
        (decide_eq_true hreads)
      exact Nat.ne_of_gt hblock (Prod.mk.inj hsame).2
    · intro hdvd
      obtain ⟨p, hp, hreads⟩ := List.countP_pos_iff.1 (hcover s hs t ht ▸ Nat.one_pos)
      obtain rfl | ⟨r, hpos, hr, hoffset⟩ := eq_or_lt_of_readsElement hvalid hp (of_decide_eq_true hreads)
      · exact hp
      · obtain ⟨hs, hs', -⟩ := hvalid p hp
        have hearlier : c.radix ∣ p.2 := (ih p.2 (by omega) (s := p.1) (by omega) (by omega)).1 hp
        have hdvd' : c.radix ∣ r := (Nat.dvd_add_right hearlier).1 (hoffset ▸ hdvd)
        exact absurd (Nat.le_of_dvd hpos hdvd') (Nat.not_le.2 hr)

include hc hvalid hcover

/-- The last column can only be read by a command of time offset `DEPTH - R`, so `R` divides the depth (41_drain.md R102). -/
theorem drainable_of_cover : drainable c := by
  obtain ⟨hR, -⟩ := configOk_arith hc
  have hD : 0 < depthOf c := depth_pos hc
  obtain ⟨p, hp, hreads⟩ := List.countP_pos_iff.1 (hcover 0 hR (depthOf c - 1) (by omega) ▸ Nat.one_pos)
  obtain ⟨r, hr, -, hoffset⟩ := of_decide_eq_true hreads
  obtain ⟨hs, hs', ht, ht'⟩ := hvalid p hp
  rw [sourceOffset_eq_time_add] at hoffset
  have hdvd : c.radix ∣ p.2 := (mem_cover_iff_dvd hvalid hcover (s := p.1) (by omega) (by omega)).1 hp
  have hdepth : p.2 + c.radix = depthOf c := by omega
  exact drainable_iff.2 ((sq_radix_dvd_length_iff hc).2 (hdepth ▸ (Nat.dvd_add_self_right).2 hdvd))

/-- An exact cover repeats no command: it would read its elements twice. -/
theorem nodup_of_cover : cmds.Nodup := by
  refine List.nodup_iff_count_le_one.2 fun p => ?_
  by_cases hp : p ∈ cmds
  · obtain ⟨hs, hs', ht, ht'⟩ := hvalid p hp
    obtain ⟨hR, -⟩ := configOk_arith hc
    have hself : readsElement c p p.1 p.2 := readsElement_self (by omega)
    rw [← hcover p.1 (by omega) p.2 (by omega), List.count]
    refine List.countP_mono_left fun q _ hq => ?_
    rw [beq_iff_eq.1 hq]
    exact decide_eq_true hself
  · exact (List.count_eq_zero_of_not_mem hp).trans_le (Nat.zero_le 1)

end ExactCover

/-- Settles O39: an exact cover and the drive set have the same members and no repetition. -/
theorem exactCoverIsTheDriveSet : Obligations.ExactCoverIsTheDriveSet := by
  intro c cmds hc hvalid hcover
  have hdrain : Drainable c := ⟨hc, drainable_of_cover hc hvalid hcover⟩
  refine ⟨hdrain.2, (List.perm_ext_iff_of_nodup (nodup_of_cover hc hvalid hcover) (driveSet_nodup hdrain)).2 fun (s, t) => ?_⟩
  rw [mem_driveSet_iff_dvd hdrain]
  constructor
  · intro hmem
    obtain ⟨hs, hs', ht, ht'⟩ := hvalid _ hmem
    obtain ⟨hR, -⟩ := configOk_arith hc
    have hlane : s < c.radix := by omega
    have hoffset : t < depthOf c := by omega
    exact ⟨hlane, (mem_cover_iff_dvd hvalid hcover hlane hoffset).1 hmem, hoffset⟩
  · rintro ⟨hs, hdvd, ht⟩
    exact (mem_cover_iff_dvd hvalid hcover hs ht).2 hdvd

/-! ### The layout of the default order -/

/-- Output sample `n` is lane `n mod R` of command `n div R` (10_state.md R31, 41_drain.md R105). -/
theorem layoutLane_eq (R n : Nat) : layoutLane R n = sourceLane R (driveCommand R (n / R)).1 (n % R) := rfl

theorem layoutOffset_eq (R n : Nat) : layoutOffset R n = sourceOffset (driveCommand R (n / R)).2 (n % R) :=
  Nat.add_comm ..

/-- The sample of an element by the command and the lane that read it (41_drain.md R104, R105). -/
theorem layoutSample_eq (R l o : Nat) :
    layoutSample R l o = (o / R * R + outputLane R (o % R) l) * R + o % R := by
  have hlane : ((l : Int) - (o % R : Nat)) % R = ((l : Int) - o) % R := by
    rw [Int.natCast_emod, Int.sub_emod_emod]
  rw [layoutSample, outputLane, hlane]

/-- Settles O44: both directions are the two directions of `driveCommand_reads_iff`. -/
theorem canonicalLayoutIsInvertible : Obligations.CanonicalLayoutIsInvertible := by
  intro R L hR hdvd
  obtain ⟨b, rfl⟩ := hdvd
  have hdepth : R * R * b / R = R * b := by rw [Nat.mul_assoc, Nat.mul_div_cancel_left _ hR]
  have hD : R ∣ R * b := Nat.dvd_mul_right R b
  rw [hdepth, Nat.mul_assoc]
  refine ⟨fun n hn => ?_, fun l hl o ho => ?_⟩
  · have hr : n % R < R := Nat.mod_lt n hR
    have hlane : layoutLane R n < R := sourceLane_lt hR
    obtain ⟨hcommand, hpos⟩ := (driveCommand_reads_iff hr hlane).1 ⟨(layoutLane_eq R n).symm, (layoutOffset_eq R n).symm⟩
    refine ⟨hlane, blockStart_add_lt hD (Nat.div_lt_of_lt_mul hn) hr, ?_⟩
    rw [layoutSample_eq, ← hcommand, ← hpos, Nat.div_add_mod']
  · have hr : o % R < R := Nat.mod_lt o hR
    have hcommand : o / R * R + outputLane R (o % R) l < R * b := blockStart_add_lt hD ho (outputLane_lt hr hl)
    obtain ⟨hlane, hoffset⟩ := (driveCommand_reads_iff hr hl).2 ⟨rfl, rfl⟩
    obtain ⟨hdiv, hmod⟩ := (eq_blockStart_add_iff hr).1 (layoutSample_eq R l o)
    refine ⟨?_, ?_, ?_⟩
    · rw [layoutSample_eq]
      calc (o / R * R + outputLane R (o % R) l) * R + o % R
          < (o / R * R + outputLane R (o % R) l + 1) * R := by rw [Nat.succ_mul]; omega
        _ ≤ R * b * R := Nat.mul_le_mul_right R hcommand
        _ = R * (R * b) := Nat.mul_comm ..
    · rw [layoutLane_eq, hdiv, hmod, hlane]
    · rw [layoutOffset_eq, hdiv, hmod, hoffset]

end Sys2Proof.Machine
end

section
/-!
PROOFS. Whole runs: a list of commands on populated banks (41_drain.md R106, R107), the stream of a default DRAIN (R105,
70_reset_and_hazards.md R183), and the writes of a FILLALL (30_encoding.md R68).
-/

namespace Sys2Proof.Machine

variable {T : Type}

/-- A run goes on from where its first step leads. -/
theorem runSteps_succ_of_step {k : Nat} {s t : State} (h : step s = .next t) : runSteps (k + 1) s = runSteps k t := by
  rw [runSteps, h]

/-! ### A list of commands -/

/-- What the rule of a command reads; empty where a read fails (40_permute.md R80). -/
def ruleVector (s : State T) (p : Nat × Nat) : List T :=
  match ruleOutput s p.1 p.2 with
  | .ok v => v
  | .error _ => []

/-- With its source elements populated a rule answers its vector. -/
theorem ruleOutput_eq_ruleVector {s : State T} {p : Nat × Nat} (h : SourcesPopulated s p.1 p.2) :
    ruleOutput s p.1 p.2 = .ok (ruleVector s p) := by
  obtain ⟨v, hv⟩ := ruleOutput_of_sourcesPopulated h
  rw [ruleVector, hv]

section SameBanks
variable {s t : State T} (hc : t.config = s.config) (hb : t.banks = s.banks)
include hc hb

/-- Of a state a rule looks at configuration and banks alone. -/
theorem ruleOutput_eq_of_banks (j k : Nat) : ruleOutput t j k = ruleOutput s j k :=
  ruleOutput_congr hc fun r _ => by rw [hb]

theorem ruleVector_eq_of_banks : ruleVector t = ruleVector s := by
  funext p
  rw [ruleVector, ruleVector, ruleOutput_eq_of_banks hc hb]

end SameBanks

@[simp] theorem ruleVector_emitVector (v : List T) (s : State T) : ruleVector (emitVector v s) = ruleVector s :=
  ruleVector_eq_of_banks rfl rfl

@[simp] theorem ruleVector_setInputs (es : List (Event T)) (s : State T) : ruleVector (setInputs es s) = ruleVector s :=
  ruleVector_eq_of_banks rfl rfl

/-- The step of a valid command that finds its source elements appends its vector (40_permute.md R80). -/
theorem step_command {p : Nat × Nat} {rest : List Event} {s : State} (hf : s.fault = none) (hc : configOk s.config)
    (hp : s.phase = .drain) (hv : validCommand s.config p.1 p.2) (hpop : SourcesPopulated s p.1 p.2)
    (hi : s.inputs = .command (.permute p.1 p.2) :: rest) : step s = .next (emitVector (ruleVector s p) (setInputs rest s)) := by
  have hrule : ruleOutput (setInputs rest s) p.1 p.2 = .ok (ruleVector s p) := by
    rw [ruleOutput_eq_of_banks (s := s) (t := setInputs rest s) rfl rfl, ruleOutput_eq_ruleVector hpop]
  rw [step_cons hi]
  exact exec_permute_of_ruleOutput_ok (st := setInputs rest s) hf hc hp hv hrule

/-- Commands that are valid and find their source elements run one a step, each appending its vector (40_permute.md R80, R89). -/
theorem runSteps_commands {cmds : List (Nat × Nat)} {rest : List Event} {s : State} (hf : s.fault = none) (hc : configOk s.config)
    (hp : s.phase = .drain) (hvalid : ∀ p ∈ cmds, validCommand s.config p.1 p.2)
    (hpop : ∀ p ∈ cmds, SourcesPopulated s p.1 p.2)
    (hi : s.inputs = (cmds.map fun p => .command (.permute p.1 p.2)) ++ rest) :
    runSteps cmds.length s = .next { s with out := s.out ++ cmds.map (ruleVector s), inputs := rest } := by
  induction cmds generalizing s with
  | nil =>
    obtain rfl : s.inputs = rest := hi
    simp [runSteps]
  | cons p cmds ih =>
    obtain ⟨hv, hvalid⟩ := List.forall_mem_cons.1 hvalid
    obtain ⟨hsources, hpop⟩ := List.forall_mem_cons.1 hpop
    rw [List.length_cons, runSteps_succ_of_step (step_command hf hc hp hv hsources hi)]
    refine Eq.trans (ih hf hc hp hvalid hpop rfl) ?_
    rw [ruleVector_emitVector, ruleVector_setInputs]
    simp [emitVector, setInputs]

/-! ### A DRAIN of populated banks -/

section Drain
variable {s : State} {rest : List Event} (hf : s.fault = none) (hc : Drainable s.config)
  (hl : driveOrderLegal s.config = true) (hp : HandedOff s) (hpop : FullyPopulated s)

include hpop in
/-- In fully populated banks a valid command finds its source elements (40_permute.md R81, R83, R84). -/
theorem sourcesPopulated_of_validCommand {p : Nat × Nat} (hv : validCommand s.config p.1 p.2) : SourcesPopulated s p.1 p.2 := by
  intro r hr
  obtain ⟨-, -, ht, ht'⟩ := hv
  refine hpop _ (sourceLane_lt (Nat.zero_lt_of_lt hr)) _ ?_
  rw [sourceOffset]
  omega

include hf hc hl hp hpop in
/-- A DRAIN of populated, handed-off banks supplies its commands in one step and then runs them one by one (41_drain.md R106). -/
theorem runSteps_drain (hi : s.inputs = .drain :: rest) :
    runSteps (s.config.length / s.config.radix + 1) s =
      .next { s with out := s.out ++ (drainCommands s.config).map (ruleVector s), inputs := rest } := by
  have hlength : (drainCommands s.config).length = s.config.length / s.config.radix :=
    (drainCommands_perm hc hl).length_eq.trans (driveSequence_length _)
  have hvalid : ∀ p ∈ drainCommands s.config, validCommand s.config p.1 p.2 := fun p h =>
    validCommand_of_mem_driveSet hc (mem_driveSet_of_mem_drainCommands hc hl h)
  rw [runSteps_succ_of_step (step_drain hf hc hl hi), ← hlength,
    ← ruleVector_setInputs (drainEvents s.config ++ rest) s]
  exact runSteps_commands (s := setInputs (drainEvents s.config ++ rest) s) hf hc.1 hp hvalid
    (fun p h => sourcesPopulated_of_validCommand hpop (hvalid p h)) rfl

include hpop in
/-- The vector of a valid command in fully populated banks has `R` samples (40_permute.md R86). -/
theorem ruleVector_length {p : Nat × Nat} (hv : validCommand s.config p.1 p.2) : (ruleVector s p).length = s.config.radix :=
  ruleOutput_length (ruleOutput_eq_ruleVector (sourcesPopulated_of_validCommand hpop hv))

include hc hl hpop in
/-- Every vector of a DRAIN has `R` samples (41_drain.md R106). -/
theorem length_of_mem_drain {v : List Sample} (hv : v ∈ (drainCommands s.config).map (ruleVector s)) :
    v.length = s.config.radix := by
  obtain ⟨p, hmem, rfl⟩ := List.mem_map.1 hv
  exact ruleVector_length hpop (validCommand_of_mem_driveSet hc (mem_driveSet_of_mem_drainCommands hc hl hmem))

end Drain

/-- Blocks of `R` elements have `R` times as many elements. -/
theorem length_flatten_of_forall_length {R : Nat} {vs : List (List T)} (h : ∀ v ∈ vs, v.length = R) :
    vs.flatten.length = vs.length * R := by
  rw [List.length_flatten, List.sum_eq_card_nsmul _ R (by simpa using h), List.length_map, smul_eq_mul]

/-- Settles O42: the vectors are those of the commands of the order. -/
theorem drainCompletesWithoutFault : Obligations.DrainCompletesWithoutFault := by
  intro s rest hf hc hl hp hpop hi
  have hfull : ∀ v ∈ (drainCommands s.config).map (ruleVector s), v.length = s.config.radix := fun v hv =>
    length_of_mem_drain hc hl hpop hv
  have hlength : ((drainCommands s.config).map (ruleVector s)).length = s.config.length / s.config.radix := by
    rw [List.length_map]
    exact (drainCommands_perm hc hl).length_eq.trans (driveSequence_length _)
  refine ⟨_, hlength, hfull, ?_, runSteps_drain hf hc hl hp hpop hi⟩
  rw [length_flatten_of_forall_length hfull, hlength, Nat.div_mul_cancel (configOk_arith hc.1).2.2]

/-! ### The stream of the default order -/

section Canonical
variable {s : State} (hc : Drainable s.config) (hdefault : DefaultDrive s.config) (hpop : FullyPopulated s)
include hc hpop

/-- Lane `r` of command `i` of the default order is what the layout has at sample `i * R + r` (41_drain.md R105). -/
theorem ruleVector_driveCommand {i r : Nat} (hi : i < depthOf s.config) (hr : r < s.config.radix) :
    (ruleVector s (driveCommand s.config.radix i))[r]? =
      readElement s.banks (layoutLane s.config.radix (i * s.config.radix + r))
        (layoutOffset s.config.radix (i * s.config.radix + r)) := by
  have hmem : driveCommand s.config.radix i ∈ driveSequence s.config := List.mem_map_of_mem (List.mem_range.2 hi)
  have hvalid := validCommand_of_mem_driveSet hc ((driveSequence_perm hc).mem_iff.1 hmem)
  obtain ⟨hdiv, hmod⟩ := (eq_blockStart_add_iff (k := i) hr).1 rfl
  rw [ruleOutput_lane (ruleOutput_eq_ruleVector (sourcesPopulated_of_validCommand hpop hvalid)) hr, layoutLane_eq, layoutOffset_eq,
    hdiv, hmod]

include hdefault

/-- Sample by sample the stream of a default DRAIN is the sequence the banks were filled with (41_drain.md R105). -/
theorem flatten_drain_eq {x : List Sample} (hfill : CanonicalFill s x) :
    ((drainCommands s.config).map (ruleVector s)).flatten = x := by
  obtain ⟨hlength, hfill⟩ := hfill
  have hR : 0 < s.config.radix := (configOk_arith hc.1).1
  have hL : depthOf s.config * s.config.radix = s.config.length := by rw [Nat.mul_comm, radix_mul_depth hc.1]
  have hfull : ∀ v ∈ (drainCommands s.config).map (ruleVector s), v.length = s.config.radix := fun v hv =>
    length_of_mem_drain hc (driveOrderLegal_of_defaultDrive hdefault) hpop hv
  have hcommands : drainCommands s.config = driveSequence s.config := by rw [drainCommands, hdefault]
  rw [hcommands] at hfull ⊢
  refine List.ext_getElem? fun n => ?_
  obtain hn | hn := Nat.lt_or_ge n s.config.length
  · have hi : n / s.config.radix < depthOf s.config := Nat.div_lt_of_lt_mul (by rwa [radix_mul_depth hc.1])
    have hr : n % s.config.radix < s.config.radix := Nat.mod_lt n hR
    rw [← hfill n hn, ← Nat.div_add_mod' n s.config.radix, getElem?_flatten_of_forall_length hfull _ hr, List.getElem?_map,
      driveSequence_getElem?, if_pos hi]
    exact ruleVector_driveCommand hc hpop hi hr
  · rw [List.getElem?_eq_none (hlength.trans_le hn), List.getElem?_eq_none]
    rwa [length_flatten_of_forall_length hfull, List.length_map, driveSequence_length, hL]

end Canonical

/-- Settles O43: the run of a DRAIN, with its stream. -/
theorem drainEmitsCanonicalOrder : Obligations.DrainEmitsCanonicalOrder := by
  intro s x hf hc hdefault hp hpop hfill hout hi
  refine ⟨_, runSteps_drain hf hc (driveOrderLegal_of_defaultDrive hdefault) hp hpop hi, ⟨rfl, hf⟩, ?_, rfl, rfl⟩
  rw [flatOutput, hout]
  exact flatten_drain_eq hc hdefault hpop hfill

/-! ### The writes of a FILLALL -/

/-- The banks after a write of `v p` at each address `p` of the list, in its order (20_memory.md R45). -/
def writeElements (v : Nat × Nat → T) (m : Memory T) (ps : List (Nat × Nat)) : Memory T :=
  ps.foldl (fun m p => writeElement m p.1 p.2 (v p)) m

/-- After the writes an address of the list holds its value, and every other one what it held. -/
theorem readElement_writeElements (v : Nat × Nat → T) (m : Memory T) (ps : List (Nat × Nat)) (l o : Nat) :
    readElement (writeElements v m ps) l o = if (l, o) ∈ ps then some (v (l, o)) else readElement m l o := by
  induction ps generalizing m with
  | nil => rfl
  | cons p ps ih =>
    have hfold : writeElements v m (p :: ps) = writeElements v (writeElement m p.1 p.2 (v p)) ps := rfl
    rw [hfold, ih]
    by_cases hps : (l, o) ∈ ps
    · rw [if_pos hps, if_pos (List.mem_cons_of_mem p hps)]
    · rw [if_neg hps]
      by_cases hp : (l, o) = p
      · subst hp
        rw [if_pos List.mem_cons_self, read_write_same]
      · rw [if_neg (by simp [hp, hps]), read_write_other m (v p) fun h => hp (Prod.ext h.1.symm h.2.symm)]

/-- The step of an in-range write in phase `FILL` stores its element (20_memory.md R45). -/
theorem step_laneWrite {l o : Nat} {v : Sample} {rest : List Event} {s : State} (hf : s.fault = none) (hc : configOk s.config)
    (hp : s.phase = .fill) (ha : addressInRange s.config l o) (hi : s.inputs = .laneWrite l o v :: rest) :
    step s = .next (storeElement l o v (setInputs rest s)) := by
  rw [step_cons hi]
  exact hostLaneWrite_of_fill (s := setInputs rest s) v hf hc ha hp

/-- In phase `FILL` the writes of in-range addresses take a step each and do nothing else (20_memory.md R45). -/
theorem runSteps_laneWrites {v : Nat × Nat → Sample} {ps : List (Nat × Nat)} {rest : List Event} {s : State} (hf : s.fault = none)
    (hc : configOk s.config) (hp : s.phase = .fill) (ha : ∀ p ∈ ps, addressInRange s.config p.1 p.2)
    (hi : s.inputs = (ps.map fun p => .laneWrite p.1 p.2 (v p)) ++ rest) :
    runSteps ps.length s = .next { s with banks := writeElements v s.banks ps, inputs := rest } := by
  induction ps generalizing s with
  | nil =>
    obtain rfl : s.inputs = rest := hi
    rfl
  | cons p ps ih =>
    obtain ⟨hhead, ha⟩ := List.forall_mem_cons.1 ha
    rw [List.length_cons, runSteps_succ_of_step (step_laneWrite hf hc hp hhead hi)]
    exact ih hf hc hp ha rfl

/-- The listed addresses are those of the banks (20_memory.md R40). -/
theorem mem_bankAddresses_iff {c : Config} {l o : Nat} : (l, o) ∈ bankAddresses c ↔ l < c.radix ∧ o < depthOf c := by
  simp [bankAddresses]

/-- There are `R * DEPTH` of them (20_memory.md R40). -/
theorem bankAddresses_length (c : Config) : (bankAddresses c).length = c.radix * depthOf c := by
  simp [bankAddresses]

/-- Settles O58: a FILLALL is the list of writes of all the addresses. -/
theorem fillAllPopulatesEveryElement : Obligations.FillAllPopulatesEveryElement := by
  intro s e rest hf hc hp hi
  have hrange : ∀ p ∈ bankAddresses s.config, addressInRange s.config p.1 p.2 := fun (l, o) hmem => by
    obtain ⟨hl, ho⟩ := mem_bankAddresses_iff.1 hmem
    simp only [addressInRange]
    omega
  have hrun := runSteps_laneWrites (v := fun p => ⟨e.value p.1 p.2⟩) hf hc hp hrange hi
  rw [bankAddresses_length, radix_mul_depth hc] at hrun
  refine ⟨_, hrun, fun l hl o ho => ?_, fun l o hnot => ?_⟩
  · rw [readElement_writeElements, if_pos (mem_bankAddresses_iff.2 ⟨hl, ho⟩)]
  · rw [readElement_writeElements, if_neg (mt mem_bankAddresses_iff.1 hnot)]

end Sys2Proof.Machine
end

section
/-!
PROOFS. The laws of the reference casts (43_table_types.md R140, R141), and the six properties of R142 for the `Numerics` whose overflowed
truncation and whose ties are free values (93_implementation_defined.md U5, U6, U16).
-/

namespace Sys2Proof.Machine

/-! ### Idempotence and absorption -/

/-- Settles O54: both casts end in the format, and both keep its values, those of the other cast among them. -/
theorem castsAreIdempotent : Obligations.CastsAreIdempotent := by
  intro W I v hW
  have htrunc : Representable W I (castTrunc W I v) := castTrunc_representable hW I v
  have hround : Representable W I (castRndSat W I v) := castRndSat_representable W I v
  exact ⟨htrunc, hround, fun hv => ⟨castTrunc_of_representable hW hv, castRndSat_of_representable hv⟩,
    castTrunc_of_representable hW htrunc, castRndSat_of_representable hround, castTrunc_of_representable hW hround,
    castRndSat_of_representable htrunc⟩

/-! ### Range and monotonicity -/

section Bounds
variable {W : Nat} {I : Int} {v w : Rat}

/-- A larger raw integer stands for a larger value (43_table_types.md R131). -/
theorem fixedValue_mono {raw raw' : Int} (h : raw ≤ raw') : fixedValue W I raw ≤ fixedValue W I raw' :=
  mul_le_mul_of_nonneg_right (Int.cast_le.2 h) (pow2_pos _).le

/-- A value of the format lies within its range (43_table_types.md R131). -/
theorem withinRange_of_representable (h : Representable W I v) : WithinRange W I v := by
  obtain ⟨raw, hlow, hhigh, rfl⟩ := h
  exact withinRange_fixedValue hlow hhigh

/-- The clamp is monotonic (43_table_types.md R136). -/
theorem clampRaw_mono {q q' : Int} (h : q ≤ q') : clampRaw W q ≤ clampRaw W q' :=
  min_le_min_right _ (max_le_max_right _ h)

/-- A larger operand is a larger one in raw units. -/
theorem scaled_mono (h : v ≤ w) : v * pow2 (fracBits W I) ≤ w * pow2 (fracBits W I) :=
  mul_le_mul_of_nonneg_right h (pow2_pos _).le

/-- The rounding cast is monotonic (43_table_types.md R141). -/
theorem castRndSat_mono (h : v ≤ w) : castRndSat W I v ≤ castRndSat W I w :=
  fixedValue_mono (clampRaw_mono (Int.floor_le_floor (add_le_add_left (scaled_mono h) _)))

/-- The truncating cast is monotonic between operands that do not overflow (43_table_types.md R141). -/
theorem castTrunc_mono (hW : 1 ≤ W) (h : v ≤ w) (hlow : rawMin W ≤ ⌊v * pow2 (fracBits W I)⌋)
    (hhigh : ⌊w * pow2 (fracBits W I)⌋ ≤ rawMax W) : castTrunc W I v ≤ castTrunc W I w := by
  have hfloor := Int.floor_le_floor (scaled_mono (W := W) (I := I) h)
  rw [castTrunc, castTrunc, truncRaw, truncRaw, wrapRaw_of_mem hW hlow (hfloor.trans hhigh),
    wrapRaw_of_mem hW (hlow.trans hfloor) hhigh]
  exact fixedValue_mono hfloor

/-- The rounding cast ends between the least and the largest value of the format (43_table_types.md R141). -/
theorem castRndSat_bounds (hW : 1 ≤ W) (I : Int) (v : Rat) :
    -pow2 (I - 1) ≤ castRndSat W I v ∧ castRndSat W I v ≤ pow2 (I - 1) - pow2 (-(fracBits W I)) := by
  rw [← fixedValue_rawMin hW, ← fixedValue_rawMax hW]
  exact withinRange_of_representable (castRndSat_representable W I v)

end Bounds

/-- Settles O55: one lemma a clause. -/
theorem castsStayNearTheirOperand : Obligations.CastsStayNearTheirOperand := by
  intro W I v w hW
  exact ⟨castTrunc_floor_bounds hW, abs_castRndSat_sub_le, castRndSat_mono, castTrunc_mono hW, castRndSat_bounds hW I v⟩

/-! ### The drawn `Numerics` -/

section Drawn
variable {W : Nat} {I : Int} {v : Rat}

/-- Where the truncation does not overflow nothing is drawn (93_implementation_defined.md U5). -/
theorem castTruncDrawn_of_floor_mem (hW : 1 ≤ W) (hlow : rawMin W ≤ ⌊v * pow2 (fracBits W I)⌋)
    (hhigh : ⌊v * pow2 (fracBits W I)⌋ ≤ rawMax W) : castTruncDrawn W I v = castTrunc W I v := by
  rw [castTrunc, truncRaw, wrapRaw_of_mem hW hlow hhigh]
  exact if_pos ⟨hlow, hhigh⟩

/-- Whatever is drawn for an overflow is a value of the format (93_implementation_defined.md U5). -/
theorem castTruncDrawn_representable (hW : 1 ≤ W) (I : Int) (v : Rat) : Representable W I (castTruncDrawn W I v) := by
  by_cases hmem : rawMin W ≤ ⌊v * pow2 (fracBits W I)⌋ ∧ ⌊v * pow2 (fracBits W I)⌋ ≤ rawMax W
  · rw [castTruncDrawn_of_floor_mem hW hmem.1 hmem.2]
    exact castTrunc_representable hW I v
  · have hdraw := wrapRaw_mem hW (Config.freeOverflowRaw W I v)
    exact ⟨_, hdraw.1, hdraw.2, if_neg hmem⟩

/-- The drawn truncation keeps a value of the format. -/
theorem castTruncDrawn_of_representable (hW : 1 ≤ W) (hv : Representable W I v) : castTruncDrawn W I v = v := by
  obtain ⟨hlow, hhigh⟩ := floor_mem_of_withinRange (withinRange_of_representable hv)
  rw [castTruncDrawn_of_floor_mem hW hlow hhigh, castTrunc_of_representable hW hv]

/-- The drawn rounding differs from the reference one at a tie alone, where it may take the lower neighbour
(93_implementation_defined.md U6). -/
theorem castRndSatDrawn_cases (W : Nat) (I : Int) (v : Rat) :
    castRndSatDrawn W I v = castRndSat W I v ∨
      (v * pow2 (fracBits W I) = ⌊v * pow2 (fracBits W I)⌋ + 1 / 2 ∧
        castRndSatDrawn W I v = fixedValue W I (clampRaw W ⌊v * pow2 (fracBits W I)⌋)) := by
  by_cases htie : v * pow2 (fracBits W I) = ⌊v * pow2 (fracBits W I)⌋ + 1 / 2
  · have hdrawn : castRndSatDrawn W I v = fixedValue W I (clampRaw W
        (if Config.freeTieDown W I v then ⌊v * pow2 (fracBits W I)⌋ else ⌊v * pow2 (fracBits W I)⌋ + 1)) := if_pos htie
    rw [hdrawn]
    split
    · exact .inr ⟨htie, rfl⟩
    · have hup : ⌊v * pow2 (fracBits W I) + 1 / 2⌋ = ⌊v * pow2 (fracBits W I)⌋ + 1 := by
        rw [Int.floor_eq_iff]
        push_cast
        constructor <;> linarith
      rw [castRndSat, rndSatRaw, hup]
      exact .inl rfl
  · exact .inl (if_neg htie)

/-- Whichever neighbour is drawn, the result is a value of the format. -/
theorem castRndSatDrawn_representable (W : Nat) (I : Int) (v : Rat) : Representable W I (castRndSatDrawn W I v) := by
  obtain h | ⟨-, h⟩ := castRndSatDrawn_cases W I v <;> rw [h]
  · exact castRndSat_representable W I v
  · exact ⟨_, (clampRaw_mem W _).1, (clampRaw_mem W _).2, rfl⟩

/-- A value of the format is no tie, so the drawn rounding keeps it. -/
theorem castRndSatDrawn_of_representable (hv : Representable W I v) : castRndSatDrawn W I v = v := by
  obtain h | ⟨htie, -⟩ := castRndSatDrawn_cases W I v
  · rw [h, castRndSat_of_representable hv]
  · obtain ⟨raw, -, -, rfl⟩ := hv
    rw [fixedValue_mul, Int.floor_intCast] at htie
    linarith

/-- Both neighbours of a tie are half a step away, so the drawn rounding stays within half a step (43_table_types.md R142, P5). -/
theorem abs_castRndSatDrawn_sub_le (hv : WithinRange W I v) : |castRndSatDrawn W I v - v| ≤ pow2 (-(fracBits W I) - 1) := by
  obtain h | ⟨htie, h⟩ := castRndSatDrawn_cases W I v <;> rw [h]
  · obtain ⟨hlow, hhigh⟩ := round_mem_of_withinRange hv
    exact abs_castRndSat_sub_le hlow hhigh
  · obtain ⟨hlow, hhigh⟩ := floor_mem_of_withinRange hv
    rw [clampRaw_of_mem hlow hhigh]
    exact abs_fixedValue_sub_le (abs_le.2 ⟨by linarith, by linarith⟩)

end Drawn

/-- The drawn truncating cast is idempotent at every representation with a typing (43_table_types.md R142, P1). -/
theorem drawn_P1 : Numerics.drawn.P1 := by
  intro rep htyping v
  cases rep with
  | f32 => rfl
  | f64 => rfl
  | fixed W I q o =>
    have hW : 1 ≤ W.toNat := by
      have := one_le_of_typing htyping
      omega
    exact castTruncDrawn_of_representable hW (castTruncDrawn_representable hW I v)

/-- Nothing is drawn for a float (43_table_types.md R142, P2). -/
theorem drawn_P2 : Numerics.drawn.P2 :=
  ⟨fun _ => rfl, fun _ => rfl, fun _ => rfl, fun _ => rfl⟩

/-- Both drawn casts end in the format (43_table_types.md R142, P3). -/
theorem drawn_P3 : Numerics.drawn.P3 :=
  fun W I _ _ v hW => ⟨castTruncDrawn_representable hW I v, castRndSatDrawn_representable W I v⟩

/-- Both drawn casts keep a value of the format (43_table_types.md R142, P4). -/
theorem drawn_P4 : Numerics.drawn.P4 :=
  fun _ _ _ _ _ hW hv => ⟨castTruncDrawn_of_representable hW hv, castRndSatDrawn_of_representable hv⟩

/-- The drawn rounding cast ends in the range, near an operand within it (43_table_types.md R142, P5). -/
theorem drawn_P5 : Numerics.drawn.P5 :=
  fun W I _ _ v _ => ⟨withinRange_of_representable (castRndSatDrawn_representable W I v), abs_castRndSatDrawn_sub_le⟩

/-- The drawn truncating cast is the step at or below an operand within the range (43_table_types.md R142, P6). -/
theorem drawn_P6 : Numerics.drawn.P6 := by
  intro W I q o v hW hv
  obtain ⟨hlow, hhigh⟩ := floor_mem_of_withinRange hv
  have hsame : Numerics.drawn.trunc (.fixed W I q o) v = castTrunc W I v := castTruncDrawn_of_floor_mem hW hlow hhigh
  rw [hsame]
  exact castTrunc_floor_bounds hW hlow hhigh

/-- Settles O57: one lemma for each of P1 to P6. -/
theorem drawnNumericsSatisfyAllSix : Obligations.DrawnNumericsSatisfyAllSix :=
  ⟨drawn_P1, drawn_P2, drawn_P3, drawn_P4, drawn_P5, drawn_P6⟩

end Sys2Proof.Machine
end
